-- ==== Sys2Proof/Word.lean ====
section
/-! DEFINITION. The unit of the input and output streams and the byte strings of the code table
(00_scope.md sections 3 and 5). -/

namespace Sys2Proof

/-- A byte: bit 7 is the most significant (00_scope.md section 5). -/
abbrev Byte := BitVec 8

/-- A byte string, first byte first; `[]` is the empty one (00_scope.md section 5). -/
abbrev ByteString := List Byte

end Sys2Proof
end

