-- ==== Sys2Proof/Config.lean ====
section
/-! DEFINITION. The constants of R8, which the source fixes and a model takes as literals, and the open
parameters of the build, HAS_TRACE (R9, U6) and REGMAP (R9, D14, U11). -/

namespace Sys2Proof

/-- The signals of the status surface: `STATUS`, `CAUSE`, `ECODE`, and the views of `WIDTH` and `TLEN` (R23). -/
inductive StatusSignal where
  | status | cause | ecode | width | tlen
  deriving DecidableEq, Repr

/-- The width of a signal in bits (D10). -/
def StatusSignal.bits : StatusSignal → Nat
  | .status => 2
  | .cause => 2
  | .ecode => 12
  | .width => 4
  | .tlen => 13

/-- Where a signal stands on a bus: the address of a bus word and the place in it of the signal's bit 0 (DESIGN CHOICE,
log 20: the spec gives no bus and so no form for a place on one). -/
structure BusPlace where
  address : Nat
  lsb : Nat
  deriving DecidableEq, Repr

/-- A register map: where, if anywhere, each status signal appears on a bus (R9, D14). -/
abbrev RegMap := StatusSignal → Option BusPlace

namespace Config

/-- `CLEAR_CODE` (R8). -/
@[simp] abbrev clearValue : Nat := 256
/-- `END_CODE` (R8). -/
@[simp] abbrev endValue : Nat := 257
/-- `FIRST_DYN`: index of the first appended entry, and the table length after reset (R8). -/
@[simp] abbrev firstDyn : Nat := 258
/-- `THRESH_10` (R8). -/
@[simp] abbrev thresh10 : Nat := 511
/-- `THRESH_11` (R8). -/
@[simp] abbrev thresh11 : Nat := 1023
/-- `THRESH_12` (R8). -/
@[simp] abbrev thresh12 : Nat := 2047
/-- `MAX_TLEN` (R8). -/
@[simp] abbrev maxTlen : Nat := 4096
/-- `READ_MIN` (R8). -/
@[simp] abbrev readMin : Nat := 1
/-- `READ_MAX` (R8). -/
@[simp] abbrev readMax : Nat := 32

/-- `HAS_TRACE` (R9): whether the optional observer of R80 is built. Each integration decides, so the value is
left without a body: no proof can see it (DESIGN CHOICE, safe: log 2). -/
opaque hasTrace : Bool

/-- `REGMAP` (R9, D14 `OPEN`): the integration's register map. It is left without a body: no proof can see whether or
where a signal is placed (DESIGN CHOICE, safe: log 20). No step depends on it. -/
opaque regMap : RegMap

end Config

end Sys2Proof
end

