-- ==== Sys2Proof/Syntax.lean ====
section
/-! DEFINITION. The instructions: one constructor per row of spec/opcode_table.json, in the table's order, that is
one per (format, class) that can occur (R44). An operand is held at exactly the width of the row's field. -/

namespace Sys2Proof

/-- The four code formats of R41, which are also the four legal values of `WIDTH` (R14). -/
inductive Format where
  | w9 | w10 | w11 | w12
  deriving DecidableEq, Repr

/-- The length of a code in bits: the number the spec calls `w` (R41). -/
def Format.bits : Format → Nat
  | .w9 => 9
  | .w10 => 10
  | .w11 => 11
  | .w12 => 12

/-- The code classes of R44, with `IDX` split into `LIT` and `REF` as the opcode table splits it. -/
inductive CodeClass where
  | clr | endOfData | first | firstNotLiteral | badRef | tableFull | lit | ref | kwk
  deriving DecidableEq, Repr

/-- One constructor per row of spec/opcode_table.json. -/
inductive Instr where
  /-- CLR in format W9 (R61). -/
  | clrW9
  /-- END in format W9 (R62). -/
  | endW9
  /-- FIRST in format W9 (R63). -/
  | firstW9 (b : Byte)
  /-- FIRST_NOT_LITERAL in format W9 (R64). -/
  | firstNotLiteralW9 (c : BitVec 9)
  /-- BAD_REF in format W9 (R69). -/
  | badRefW9 (c : BitVec 9)
  /-- LIT in format W9 (R65). -/
  | litW9 (b : Byte)
  /-- REF in format W9 (R65). -/
  | refW9 (c : BitVec 9)
  /-- KWK in format W9 (R66). -/
  | kwkW9 (c : BitVec 9)
  /-- CLR in format W10 (R61). -/
  | clrW10
  /-- END in format W10 (R62). -/
  | endW10
  /-- BAD_REF in format W10 (R69). -/
  | badRefW10 (c : BitVec 10)
  /-- LIT in format W10 (R65). -/
  | litW10 (b : Byte)
  /-- REF in format W10 (R65). -/
  | refW10 (c : BitVec 10)
  /-- KWK in format W10 (R66). -/
  | kwkW10 (c : BitVec 10)
  /-- CLR in format W11 (R61). -/
  | clrW11
  /-- END in format W11 (R62). -/
  | endW11
  /-- BAD_REF in format W11 (R69). -/
  | badRefW11 (c : BitVec 11)
  /-- LIT in format W11 (R65). -/
  | litW11 (b : Byte)
  /-- REF in format W11 (R65). -/
  | refW11 (c : BitVec 11)
  /-- KWK in format W11 (R66). -/
  | kwkW11 (c : BitVec 11)
  /-- CLR in format W12 (R61). -/
  | clrW12
  /-- END in format W12 (R62). -/
  | endW12
  /-- BAD_REF in format W12 (R69). -/
  | badRefW12 (c : BitVec 12)
  /-- TABLE_FULL in format W12 (R67). -/
  | tableFullW12 (c : BitVec 12)
  /-- LIT in format W12 (R65). -/
  | litW12 (b : Byte)
  /-- REF in format W12 (R65). -/
  | refW12 (c : BitVec 12)
  /-- KWK in format W12 (R66). -/
  | kwkW12 (c : BitVec 12)
  deriving DecidableEq, Repr

/-- The format column of the instruction's row. -/
def Instr.format : Instr → Format
  | .clrW9 => .w9
  | .endW9 => .w9
  | .firstW9 _ => .w9
  | .firstNotLiteralW9 _ => .w9
  | .badRefW9 _ => .w9
  | .litW9 _ => .w9
  | .refW9 _ => .w9
  | .kwkW9 _ => .w9
  | .clrW10 => .w10
  | .endW10 => .w10
  | .badRefW10 _ => .w10
  | .litW10 _ => .w10
  | .refW10 _ => .w10
  | .kwkW10 _ => .w10
  | .clrW11 => .w11
  | .endW11 => .w11
  | .badRefW11 _ => .w11
  | .litW11 _ => .w11
  | .refW11 _ => .w11
  | .kwkW11 _ => .w11
  | .clrW12 => .w12
  | .endW12 => .w12
  | .badRefW12 _ => .w12
  | .tableFullW12 _ => .w12
  | .litW12 _ => .w12
  | .refW12 _ => .w12
  | .kwkW12 _ => .w12

/-- The class (mnemonic column) of the instruction's row. -/
def Instr.cls : Instr → CodeClass
  | .clrW9 => .clr
  | .endW9 => .endOfData
  | .firstW9 _ => .first
  | .firstNotLiteralW9 _ => .firstNotLiteral
  | .badRefW9 _ => .badRef
  | .litW9 _ => .lit
  | .refW9 _ => .ref
  | .kwkW9 _ => .kwk
  | .clrW10 => .clr
  | .endW10 => .endOfData
  | .badRefW10 _ => .badRef
  | .litW10 _ => .lit
  | .refW10 _ => .ref
  | .kwkW10 _ => .kwk
  | .clrW11 => .clr
  | .endW11 => .endOfData
  | .badRefW11 _ => .badRef
  | .litW11 _ => .lit
  | .refW11 _ => .ref
  | .kwkW11 _ => .kwk
  | .clrW12 => .clr
  | .endW12 => .endOfData
  | .badRefW12 _ => .badRef
  | .tableFullW12 _ => .tableFull
  | .litW12 _ => .lit
  | .refW12 _ => .ref
  | .kwkW12 _ => .kwk

/-- The code value: the whole word, which is opcode and operand at once (R41, R43). -/
def Instr.code : Instr → Nat
  | .clrW9 => Config.clearValue
  | .endW9 => Config.endValue
  | .firstW9 b => b.toNat
  | .firstNotLiteralW9 c => c.toNat
  | .badRefW9 c => c.toNat
  | .litW9 b => b.toNat
  | .refW9 c => c.toNat
  | .kwkW9 c => c.toNat
  | .clrW10 => Config.clearValue
  | .endW10 => Config.endValue
  | .badRefW10 c => c.toNat
  | .litW10 b => b.toNat
  | .refW10 c => c.toNat
  | .kwkW10 c => c.toNat
  | .clrW11 => Config.clearValue
  | .endW11 => Config.endValue
  | .badRefW11 c => c.toNat
  | .litW11 b => b.toNat
  | .refW11 c => c.toNat
  | .kwkW11 c => c.toNat
  | .clrW12 => Config.clearValue
  | .endW12 => Config.endValue
  | .badRefW12 c => c.toNat
  | .tableFullW12 c => c.toNat
  | .litW12 b => b.toNat
  | .refW12 c => c.toNat
  | .kwkW12 c => c.toNat

end Sys2Proof
end

