-- ==== Sys2Proof/WellFormed.lean ====
section
/-! DEFINITION. Which instruction terms are well-formed: those the decoder can meet at some table length at which
their format is read. The condition on the state itself is the decoder's (`CodeClass.cond` in Decode.lean). -/

namespace Sys2Proof

/-- The least table length at which a code is read in this format (R42). -/
def Format.minTlen : Format → Nat
  | .w9 => Config.firstDyn
  | .w10 => Config.thresh10
  | .w11 => Config.thresh11
  | .w12 => Config.thresh12

/-- The greatest table length at which a code is read in this format (R42, R19b). -/
def Format.maxTlen : Format → Nat
  | .w9 => Config.thresh10 - 1
  | .w10 => Config.thresh11 - 1
  | .w11 => Config.thresh12 - 1
  | .w12 => Config.maxTlen

/-- The greatest table length of this format at which a code may still append (R44 rows 7 and 8: `TLEN < 4096`). -/
def Format.maxAppendTlen (f : Format) : Nat := min f.maxTlen (Config.maxTlen - 1)

/-- `CLR`, `END`, `FIRST` and `LIT` have no operand value that could not occur; the others are bounded by the
table lengths of their format (R44 with R42): `FIRST_NOT_LITERAL` is 258 and above, `BAD_REF` above the table
length, `TABLE_FULL` anything but the control codes, `REF` from 258 and below the table length, `KWK` equal to it. -/
def Instr.wf (i : Instr) : Bool :=
  match i.cls with
  | .clr | .endOfData | .first | .lit => true
  | .firstNotLiteral => decide (Config.firstDyn ≤ i.code)
  | .badRef => decide (i.format.minTlen < i.code)
  | .tableFull => decide (i.code ≠ Config.clearValue ∧ i.code ≠ Config.endValue)
  | .ref => decide (Config.firstDyn ≤ i.code ∧ i.code < i.format.maxAppendTlen)
  | .kwk => decide (i.format.minTlen ≤ i.code ∧ i.code ≤ i.format.maxAppendTlen)

end Sys2Proof
end

