-- ==== Sys2Proof/Decode.lean ====
section
/-! DEFINITION. From bits to instructions and back. `decodeCode` is the class order of R44 on a code value in a
context; `decodeBits` and `decodeBytes` cut the code off a stream first (R28, R41); `encode…` write a
code's bits; `opcodeRows` is spec/opcode_table.json itself, and `tableDecode` reads it as R44 says. -/

namespace Sys2Proof

/-! ## Bits of bytes -/

/-- A number's low `w` bits, most significant first (R41: bit `w-1` is the first in stream order). -/
def bitsOfNat (w n : Nat) : List Bool := (List.range w).map fun j => n.testBit (w - 1 - j)

/-- The number whose bits these are, the first the most significant (R28). -/
def natOfBits (bits : List Bool) : Nat := bits.foldl (fun v b => 2 * v + b.toNat) 0

/-- The eight bits of a byte in stream order: bit 7 first (R28). -/
def bitsOfByte (b : Byte) : List Bool := bitsOfNat 8 b.toNat

/-- The bit string of a byte string (R28: bit `k` is bit `7 - (k mod 8)` of byte `k div 8`). -/
def bitsOfBytes (bytes : ByteString) : List Bool := bytes.flatMap bitsOfByte

/-- The byte whose bits in stream order are the first eight, missing ones zero (R51: zero padding). -/
def byteOfBits (bits : List Bool) : Byte :=
  BitVec.ofNat 8 (natOfBits ((bits ++ List.replicate 8 false).take 8))

/-- `n` whole bytes from the front of a bit string, padded with zero bits (R51). -/
def bytesOfBits : Nat → List Bool → ByteString
  | 0, _ => []
  | n + 1, bits => byteOfBits bits :: bytesOfBits n (bits.drop 8)

/-- A bit string as bytes, padded with zero bits to a whole byte (R51). -/
def packBits (bits : List Bool) : ByteString := bytesOfBits ((bits.length + 7) / 8) bits

/-! ## The context a code is decoded in -/

/-- `width_of` of 00_scope.md section 6 (R68): the code width that a table length forces. -/
def widthOf (tlen : Nat) : Format :=
  if tlen < Config.thresh10 then .w9
  else if tlen < Config.thresh11 then .w10
  else if tlen < Config.thresh12 then .w11
  else .w12

/-- All that the class of a code depends on besides its value (R44), and the width it is read at (R42). -/
structure DecodeCtx where
  /-- `WIDTH` -/
  width : Format
  /-- `PREV = ""` -/
  prevEmpty : Bool
  /-- `TLEN` -/
  tlen : Nat
  deriving DecidableEq, Repr

/-- A context that a state between two steps can show: the table length in its range (R15), the width the one it
forces (R14), and an empty `PREV` only with a cleared table (R63b). -/
def DecodeCtx.ok (ctx : DecodeCtx) : Bool :=
  decide (Config.firstDyn ≤ ctx.tlen ∧ ctx.tlen ≤ Config.maxTlen ∧ ctx.width = widthOf ctx.tlen
    ∧ (ctx.prevEmpty = true → ctx.tlen = Config.firstDyn))

/-- The condition of a class on value and state (R44; the rows' mask and cond columns together). -/
def CodeClass.cond (k : CodeClass) (ctx : DecodeCtx) (c : Nat) : Bool :=
  match k with
  | .clr => decide (c = Config.clearValue)
  | .endOfData => decide (c = Config.endValue)
  | .first => decide (ctx.prevEmpty = true ∧ c ≤ 255)
  | .firstNotLiteral => decide (ctx.prevEmpty = true ∧ Config.firstDyn ≤ c)
  | .badRef => decide (ctx.prevEmpty = false ∧ ctx.tlen < c)
  | .tableFull => decide (ctx.prevEmpty = false ∧ c ≤ ctx.tlen ∧ ctx.tlen = Config.maxTlen
      ∧ c ≠ Config.clearValue ∧ c ≠ Config.endValue)
  | .lit => decide (ctx.prevEmpty = false ∧ c ≤ 255 ∧ ctx.tlen < Config.maxTlen)
  | .ref => decide (ctx.prevEmpty = false ∧ Config.firstDyn ≤ c ∧ c < ctx.tlen ∧ ctx.tlen < Config.maxTlen)
  | .kwk => decide (ctx.prevEmpty = false ∧ c = ctx.tlen ∧ ctx.tlen < Config.maxTlen)

/-- The instruction is the one this context selects: its format is the width the code is read at, and its row's
condition holds. -/
def Instr.selected (i : Instr) (ctx : DecodeCtx) : Bool :=
  decide (i.format = ctx.width) && i.cls.cond ctx i.code

/-! ## Decoding -/

/-- Why the decoder rejects. No run of the machine meets any of these: the driver reads `WIDTH` bits, and every
(state, value) pair falls in exactly one row (R44). -/
inductive DecodeError where
  /-- Fewer bits than the width asks for. -/
  | tooFewBits
  /-- The value does not fit the width (U10: `feed(c)` with `c` out of range is refused). -/
  | codeTooWide
  /-- The table has no row for this class in this format (log 8). -/
  | noTableRow
  deriving DecidableEq, Repr

/-- The class of a code: the tests of R44 and R60, in their order, first match wins. -/
def classify (ctx : DecodeCtx) (c : Nat) : CodeClass :=
  if c = Config.clearValue then .clr
  else if c = Config.endValue then .endOfData
  else if ctx.prevEmpty then
    if Config.firstDyn ≤ c then .firstNotLiteral else .first
  else if ctx.tlen < c then .badRef
  else if ctx.tlen = Config.maxTlen then .tableFull
  else if c < ctx.tlen then
    if c ≤ 255 then .lit else .ref
  else .kwk

/-- The instruction of the table's row for a format and a class, its operand taken from the code value. -/
def rowInstr (f : Format) (k : CodeClass) (c : Nat) : Option Instr :=
  match f, k with
  | .w9, .clr => some .clrW9
  | .w9, .endOfData => some .endW9
  | .w9, .first => some (.firstW9 (BitVec.ofNat 8 c))
  | .w9, .firstNotLiteral => some (.firstNotLiteralW9 (BitVec.ofNat 9 c))
  | .w9, .badRef => some (.badRefW9 (BitVec.ofNat 9 c))
  | .w9, .lit => some (.litW9 (BitVec.ofNat 8 c))
  | .w9, .ref => some (.refW9 (BitVec.ofNat 9 c))
  | .w9, .kwk => some (.kwkW9 (BitVec.ofNat 9 c))
  | .w10, .clr => some .clrW10
  | .w10, .endOfData => some .endW10
  | .w10, .badRef => some (.badRefW10 (BitVec.ofNat 10 c))
  | .w10, .lit => some (.litW10 (BitVec.ofNat 8 c))
  | .w10, .ref => some (.refW10 (BitVec.ofNat 10 c))
  | .w10, .kwk => some (.kwkW10 (BitVec.ofNat 10 c))
  | .w11, .clr => some .clrW11
  | .w11, .endOfData => some .endW11
  | .w11, .badRef => some (.badRefW11 (BitVec.ofNat 11 c))
  | .w11, .lit => some (.litW11 (BitVec.ofNat 8 c))
  | .w11, .ref => some (.refW11 (BitVec.ofNat 11 c))
  | .w11, .kwk => some (.kwkW11 (BitVec.ofNat 11 c))
  | .w12, .clr => some .clrW12
  | .w12, .endOfData => some .endW12
  | .w12, .badRef => some (.badRefW12 (BitVec.ofNat 12 c))
  | .w12, .tableFull => some (.tableFullW12 (BitVec.ofNat 12 c))
  | .w12, .lit => some (.litW12 (BitVec.ofNat 8 c))
  | .w12, .ref => some (.refW12 (BitVec.ofNat 12 c))
  | .w12, .kwk => some (.kwkW12 (BitVec.ofNat 12 c))
  | .w10, .first => none
  | .w10, .firstNotLiteral => none
  | .w11, .first => none
  | .w11, .firstNotLiteral => none
  | .w12, .first => none
  | .w12, .firstNotLiteral => none
  | .w9, .tableFull => none
  | .w10, .tableFull => none
  | .w11, .tableFull => none

/-- The instruction a code value stands for, in a context. -/
def decodeCode (ctx : DecodeCtx) (c : Nat) : Except DecodeError Instr :=
  if 2 ^ ctx.width.bits ≤ c then .error .codeTooWide
  else
    match rowInstr ctx.width (classify ctx c) c with
    | some i => .ok i
    | none => .error .noTableRow

/-- The instruction at the front of a bit string, and the bits after it. -/
def decodeBits (ctx : DecodeCtx) (bits : List Bool) : Except DecodeError (Instr × List Bool) :=
  if bits.length < ctx.width.bits then .error .tooFewBits
  else
    match decodeCode ctx (natOfBits (bits.take ctx.width.bits)) with
    | .ok i => .ok (i, bits.drop ctx.width.bits)
    | .error e => .error e

/-- The instruction at the front of a byte string: total on any bytes. -/
def decodeBytes (ctx : DecodeCtx) (bytes : ByteString) : Except DecodeError (Instr × List Bool) :=
  decodeBits ctx (bitsOfBytes bytes)

/-! ## The opcode table as data -/

/-- A row of spec/opcode_table.json; within a format the rows stand in ascending priority. -/
structure OpcodeRow where
  format : Format
  cls : CodeClass
  matchBits : Nat
  maskBits : Nat
  priority : Nat
  deriving DecidableEq, Repr

/-- The rows of format W9. -/
def opcodeRowsW9 : List OpcodeRow :=
  [ ⟨.w9, .clr, 0x100, 0x1ff, 1⟩
  , ⟨.w9, .endOfData, 0x101, 0x1ff, 2⟩
  , ⟨.w9, .first, 0x000, 0x100, 3⟩
  , ⟨.w9, .firstNotLiteral, 0x000, 0x000, 4⟩
  , ⟨.w9, .badRef, 0x000, 0x000, 5⟩
  , ⟨.w9, .lit, 0x000, 0x100, 7⟩
  , ⟨.w9, .ref, 0x000, 0x000, 7⟩
  , ⟨.w9, .kwk, 0x000, 0x000, 8⟩ ]

/-- The rows of format W10. -/
def opcodeRowsW10 : List OpcodeRow :=
  [ ⟨.w10, .clr, 0x100, 0x3ff, 1⟩
  , ⟨.w10, .endOfData, 0x101, 0x3ff, 2⟩
  , ⟨.w10, .badRef, 0x000, 0x000, 5⟩
  , ⟨.w10, .lit, 0x000, 0x300, 7⟩
  , ⟨.w10, .ref, 0x000, 0x000, 7⟩
  , ⟨.w10, .kwk, 0x000, 0x000, 8⟩ ]

/-- The rows of format W11. -/
def opcodeRowsW11 : List OpcodeRow :=
  [ ⟨.w11, .clr, 0x100, 0x7ff, 1⟩
  , ⟨.w11, .endOfData, 0x101, 0x7ff, 2⟩
  , ⟨.w11, .badRef, 0x000, 0x000, 5⟩
  , ⟨.w11, .lit, 0x000, 0x700, 7⟩
  , ⟨.w11, .ref, 0x000, 0x000, 7⟩
  , ⟨.w11, .kwk, 0x000, 0x000, 8⟩ ]

/-- The rows of format W12. -/
def opcodeRowsW12 : List OpcodeRow :=
  [ ⟨.w12, .clr, 0x100, 0xfff, 1⟩
  , ⟨.w12, .endOfData, 0x101, 0xfff, 2⟩
  , ⟨.w12, .badRef, 0x000, 0x000, 5⟩
  , ⟨.w12, .tableFull, 0x000, 0x000, 6⟩
  , ⟨.w12, .lit, 0x000, 0xf00, 7⟩
  , ⟨.w12, .ref, 0x000, 0x000, 7⟩
  , ⟨.w12, .kwk, 0x000, 0x000, 8⟩ ]

/-- The whole table, 27 rows. -/
def opcodeRows : List OpcodeRow := opcodeRowsW9 ++ opcodeRowsW10 ++ opcodeRowsW11 ++ opcodeRowsW12

/-- A row's `cond` column alone, as the table prints it; the value tests of `CLR`, `END`, `FIRST` and `LIT` are
their masks'. -/
def OpcodeRow.cond (r : OpcodeRow) (ctx : DecodeCtx) (c : Nat) : Bool :=
  match r.cls with
  | .clr | .endOfData => true
  | .first => ctx.prevEmpty
  | .firstNotLiteral => ctx.prevEmpty && decide (Config.firstDyn ≤ c)
  | .badRef => !ctx.prevEmpty && decide (ctx.tlen < c)
  | .tableFull => !ctx.prevEmpty && decide (c ≤ ctx.tlen ∧ ctx.tlen = Config.maxTlen)
  | .lit => !ctx.prevEmpty && decide (ctx.tlen < Config.maxTlen)
  | .ref => !ctx.prevEmpty && decide (Config.firstDyn ≤ c ∧ c < ctx.tlen ∧ ctx.tlen < Config.maxTlen)
  | .kwk => !ctx.prevEmpty && decide (c = ctx.tlen ∧ ctx.tlen < Config.maxTlen)

/-- A row matches when `(code & mask) = match` and its `cond` holds (R44). -/
def OpcodeRow.holds (r : OpcodeRow) (ctx : DecodeCtx) (c : Nat) : Bool :=
  decide (r.format = ctx.width) && decide (c &&& r.maskBits = r.matchBits) && r.cond ctx c

/-- Decoding by the table: the first row of the format, by ascending priority, that matches (R44). -/
def tableDecode (ctx : DecodeCtx) (c : Nat) : Option Instr :=
  (opcodeRows.find? fun r => r.holds ctx c).bind fun r => rowInstr r.format r.cls c

/-! ## Encoding -/

/-- The bits of an instruction in stream order (R41). -/
def encodeBits (i : Instr) : List Bool := bitsOfNat i.format.bits i.code

/-- A list of instructions as a stream: the codes end to end with no gaps, padded with zero bits (R46, R51). -/
def encode (is : List Instr) : ByteString := packBits (is.flatMap encodeBits)

/-! ## The words of the opcode table, for the host -/

/-- The format in which a word that the table numbers from its least significant bit is laid out: the format of
that length when the length says one; else the width in force, or, for a word that does not fit it, the narrowest
format that holds it (log 10). -/
def tableFormat (cur : Format) (nbits w : Nat) : Format :=
  if nbits = 9 then .w9
  else if nbits = 10 then .w10
  else if nbits = 11 then .w11
  else if nbits = 12 then .w12
  else if w < 2 ^ cur.bits then cur
  else if w < 1024 then .w10
  else if w < 2048 then .w11
  else .w12

/-- The context of the reset state in format W9, and in a wider format that of the shortest table read in it. -/
def tableCtx (f : Format) : DecodeCtx := ⟨f, decide (f = .w9), f.minTlen⟩

/-- The instruction the decoder reads from a word of the opcode table: the word is laid out as the stream stores it
and decoded from those bits. -/
def decodeTableWord (nbits w : Nat) : Option Instr :=
  let f := tableFormat .w9 nbits w
  if 2 ^ f.bits ≤ w then none
  else
    match decodeBytes (tableCtx f) (packBits (bitsOfNat f.bits w)) with
    | .ok (i, _) => some i
    | .error _ => none

end Sys2Proof
end

