-- ==== Sys2Proof/Machine/State.lean ====
section
/-! DEFINITION. The state of the machine: every element of 10_state.md, with the run's input (R9) and the optional
observer's records (R80); the state right after reset (R24); and the reasons a step can stop. -/

namespace Sys2Proof.Machine

/-- `STATUS` (R22). -/
inductive Status where
  | run | doneEnd | doneEos | errCorrupt
  deriving DecidableEq, Repr

/-- `CAUSE` (R23, R87): which of the three rules raised `CorruptStream`. -/
inductive Cause where
  | noCause | badRef | firstNotLiteral | tableFull
  deriving DecidableEq, Repr

/-- One record of the observer (R80, D12): the code, the width it was read at, its chunk, and the table length
after the step. -/
structure TraceRecord where
  code : Nat
  width : Format
  chunk : ByteString
  tableSize : Nat
  deriving DecidableEq, Repr

/-- The machine's state; the names are those of 10_state.md in lower case. -/
structure State where
  /-- `IN`, the whole input; its length is `N` (R9, R12; log 1). -/
  input : ByteString
  /-- `IPOS`, the number of input bytes pulled so far (R12). -/
  ipos : Nat
  /-- `BUF`, the byte most recently pulled (R13). -/
  buf : Byte
  /-- `BPOS`, how many bits of `BUF` are consumed (R13). -/
  bpos : Nat
  /-- `WIDTH` (R14). -/
  width : Format
  /-- `TAB`: element `k` is entry `258 + k` (R18; log 4). -/
  tab : List ByteString
  /-- `PREV` (R20). -/
  prev : ByteString
  /-- `OUT` (R21). -/
  out : ByteString
  /-- `STATUS` (R22). -/
  status : Status
  /-- `CAUSE` (R23). -/
  cause : Cause
  /-- `ECODE` (R23). -/
  ecode : BitVec 12
  /-- `HAS_TRACE` of this build (R9, R80; log 2). -/
  hasTrace : Bool
  /-- The records the observer has been given (R80; log 3). -/
  trace : List TraceRecord
  deriving DecidableEq, Repr

/-- `TLEN`: the number of slots, placeholders included (R15; log 4). -/
def State.tlen (s : State) : Nat := Config.firstDyn + s.tab.length

/-- `N`, the length of the input (R9). -/
def State.inputLength (s : State) : Nat := s.input.length

/-- The bit cursor: the position of the next unread bit of the input (R11). -/
def State.cursor (s : State) : Nat := 8 * s.ipos - (8 - s.bpos)

/-- What the class of the next code depends on (R42, R44). -/
def State.ctx (s : State) : DecodeCtx := ⟨s.width, s.prev.isEmpty, s.tlen⟩

/-- The state after reset (R24, R95). The input is a parameter of the run and nothing is placed in it here (log 1);
`hasTrace` is the build's open parameter (log 2); no record has been delivered (log 3). -/
def State.reset : State where
  input := []
  ipos := 0
  buf := 0
  bpos := 8
  width := .w9
  tab := []
  prev := []
  out := []
  status := .run
  cause := .noCause
  ecode := 0
  hasTrace := Config.hasTrace
  trace := []

/-- The reasons a step stops with a fault. -/
inductive Fault where
  /-- Raised by `step` when `STATUS` is not `RUN`: no step is defined there until the next reset, and nothing
  changes (R79, U10 "stuck"). Safe: the model stops where the block stops (log 6). -/
  | stopped
  deriving DecidableEq, Repr

/-- The reasons the model gives no meaning. -/
inductive Refusal where
  /-- Raised by `exec` for an instruction without a meaning; no instruction is in that case. Safe. -/
  | notModelled (mnemonic : String)
  /-- Raised by `step` when the decoder rejects: no state that a run reaches does (log 8). Safe. -/
  | rejected (e : DecodeError)
  /-- Raised by a meaning applied in a state where its row's condition is false; `step` never does that
  (log 9). Safe. -/
  | rowNotSelected
  /-- Raised by a read of fewer than 1 or more than 32 bits, which is not a form of `read_bits` (R58, U10, D15);
  the driver never asks for one (log 13). Safe. -/
  | readBitsOutOfRange
  /-- Raised by a `feed` of a value outside 0..4095, which is not a form of `feed` (R60, U10 "refuse"); the driver
  never feeds one (log 19). Safe. -/
  | feedOutOfRange
  deriving DecidableEq, Repr

end Sys2Proof.Machine
end

