-- ==== Sys2Proof/Machine/Flags.lean ====
section
/-! DEFINITION. The status surface (R22, R23, R87, D10): the numeric codes of STATUS and CAUSE, the host's read-only
view, where a register map shows it on a bus (D14), and success. The only other flag any rule tests is `PREV = ""`, which `State.ctx` shows (R22). -/

namespace Sys2Proof.Machine

/-- The 2-bit code of `STATUS` (R87). -/
def Status.bits : Status → BitVec 2
  | .run => 0
  | .doneEnd => 1
  | .doneEos => 2
  | .errCorrupt => 3

/-- The 2-bit code of `CAUSE` (R87). -/
def Cause.bits : Cause → BitVec 2
  | .noCause => 0
  | .badRef => 1
  | .firstNotLiteral => 2
  | .tableFull => 3

/-- The source's "completes normally": either graceful ending (R22). -/
def Status.success : Status → Bool
  | .doneEnd | .doneEos => true
  | .run | .errCorrupt => false

/-- The status signals at the widths of D10, all read-only to the host (R23, R82). -/
structure StatusPorts where
  status : BitVec 2
  cause : BitVec 2
  ecode : BitVec 12
  width : BitVec 4
  tlen : BitVec 13
  deriving DecidableEq, Repr

/-- What the host reads (R82). -/
def statusPorts (s : State) : StatusPorts where
  status := s.status.bits
  cause := s.cause.bits
  ecode := s.ecode
  width := BitVec.ofNat 4 s.width.bits
  tlen := BitVec.ofNat 13 s.tlen

/-- One of the signals. -/
def StatusPorts.signal (p : StatusPorts) : (sig : StatusSignal) → BitVec sig.bits
  | .status => p.status
  | .cause => p.cause
  | .ecode => p.ecode
  | .width => p.width
  | .tlen => p.tlen

/-- What a register map shows of a signal on a bus: its place there and its value, or nothing where the map places it
nowhere (R9, D14). The map is an argument, the build's own is `Config.regMap`. There is a read and no write: every
signal is read-only to the host (R23, R82). -/
def signalOnBus (regMap : RegMap) (sig : StatusSignal) (s : State) : Option (BusPlace × BitVec sig.bits) :=
  (regMap sig).map fun place => (place, (statusPorts s).signal sig)

/-- What the host reads of a signal on the bus of this build (R9, R82, D14). -/
def hostBusRead (sig : StatusSignal) (s : State) : Option (BusPlace × BitVec sig.bits) :=
  signalOnBus Config.regMap sig s

/-- `STATUS <- v`, by which a code or an exhausted input ends the run (R22, R75, R76). -/
def setStatus (v : Status) (s : State) : State := { s with status := v }

end Sys2Proof.Machine
end

