-- ==== Sys2Proof/Machine/Operands.lean ====
section
/-! DEFINITION. The three uses of a code's one operand, its value (R45): as a literal byte, as a table index, and
compared with TLEN; and the strings built from PREV. The comparison is in `CodeClass.cond`. -/

namespace Sys2Proof.Machine

/-- Entry `b` of the 256 fixed entries: the one-byte string `[b]` (R16). -/
def literalEntry (b : Byte) : ByteString := [b]

/-- `TabRead(i)` (R33): the fixed entries are constants (R16), the placeholders 256 and 257 have no payload (R17),
and an index at `TLEN` or above holds no entry (R18). -/
def tabRead (i : Nat) (s : State) : Option ByteString :=
  if i < Config.clearValue then some (literalEntry (BitVec.ofNat 8 i))
  else if i < Config.firstDyn then none
  else s.tab[i - Config.firstDyn]?

/-- `p ++ [x[0]]`: the string a code appends (R65), and with `x = p` the KwKwK string (R66). No entry and no
chunk of a run is empty; of an empty `x`, which has no first byte, nothing is added (log 15). -/
def extend (p x : ByteString) : ByteString := p ++ x.take 1

/-- The KwKwK string `PREV ++ [PREV[0]]` (R66). -/
def kwkString (s : State) : ByteString := extend s.prev s.prev

end Sys2Proof.Machine
end

