-- ==== Sys2Proof/Machine/Ops.lean ====
section
/-! DEFINITION. The named operations over the three spaces and the registers: the bit reader (R27, R52 to R58), the
table (R34, R61, R68), the output and the observer (R31, R80), the two exceptional endings (R85, R86) and reset,
the only way on from them (R91, R95), and the shared meanings of the code classes (R61 to R69). -/

namespace Sys2Proof.Machine

/-! ## Input stream and bit reader -/

/-- The effect on the reader of pulling byte `b`: `IPOS <- IPOS + 1; BUF <- b; BPOS <- 0` (R27, R54). -/
def takeByte (b : Byte) (s : State) : State :=
  { s with ipos := s.ipos + 1, buf := b, bpos := 0 }

/-- `BPOS <- v` (R53, R55). -/
def setBpos (v : Nat) (s : State) : State := { s with bpos := v }

/-- The bytes not yet pulled. -/
def unread (s : State) : ByteString := s.input.drop s.ipos

/-- `InPull()` with the pulled byte going to `BUF` (R27, R54): `none` is `raise EndOfStream`, which changes
nothing. -/
def inPull (s : State) : Option State :=
  match unread s with
  | [] => none
  | b :: _ => some (takeByte b s)

/-- How a `read_bits` ends (R52): with a value, by `EndOfStream` (R55), or not at all because the number of bits is
not a form of the operation (R58). -/
inductive ReadOutcome where
  | value (v : Nat) (s : State)
  | endOfStream (s : State)
  | notAForm
  deriving DecidableEq, Repr

/-- The loop of R52, over the bytes not yet pulled: `m` bits are still needed and `v` is accumulated. The
finishing case is R53, the continuing case R54, and no byte left is R55, with the bits taken into the dropped
result consumed (D8). -/
def readLoop : ByteString → Nat → Nat → State → ReadOutcome
  | rest, m, v, s =>
    let r := 8 - s.bpos
    if m ≤ r then
      .value ((v <<< m) ||| ((s.buf.toNat >>> (r - m)) &&& (2 ^ m - 1))) (setBpos (s.bpos + m) s)
    else
      match rest with
      | [] => .endOfStream (setBpos 8 s)
      | b :: rest => readLoop rest (m - r) ((v <<< r) ||| (s.buf.toNat &&& (2 ^ r - 1))) (takeByte b s)

/-- `read_bits(n)` (R52), a form for `1 <= n <= 32` only (R58). -/
def readBits (n : Nat) (s : State) : ReadOutcome :=
  if Config.readMin ≤ n ∧ n ≤ Config.readMax then readLoop (unread s) n 0 s else .notAForm

/-! ## Code table, width and PREV -/

/-- `TabAppend(x)` (R34): entry `TLEN` becomes `x` and `TLEN` grows by one. -/
def tabAppend (x : ByteString) (s : State) : State := { s with tab := s.tab ++ [x] }

/-- The width update after an append: `WIDTH <- width_of(TLEN)` (R68). -/
def updateWidth (s : State) : State := { s with width := widthOf s.tlen }

/-- `PREV <- x` (R20). -/
def setPrev (x : ByteString) (s : State) : State := { s with prev := x }

/-- `TLEN <- 258; WIDTH <- 9; PREV <- ""` (R61): every dynamic entry is discarded. -/
def clearEngine (s : State) : State := { s with tab := [], width := .w9, prev := [] }

/-- The table's form between steps (R18, R19c, R71): at most 4096 slots, entry `i` of length 2 to `i - 256`.
(The three spaces are lists, so equal contents are equal data: log 11.) -/
def Memory.wf (s : State) : Bool :=
  decide (s.tlen ≤ Config.maxTlen) &&
    s.tab.zipIdx.all fun p => decide (2 ≤ p.1.length ∧ p.1.length ≤ p.2 + 2)

/-! ## Output and observer -/

/-- `Emit(x)` (R31). -/
def emit (x : ByteString) (s : State) : State := { s with out := s.out ++ x }

/-- The observer is given a record, in a build that has one (R80). -/
def observe (r : TraceRecord) (s : State) : State :=
  { s with trace := if s.hasTrace then s.trace ++ [r] else s.trace }

/-- The driver's part after a code `c`, read at width `w`, has yielded the chunk `x` (R73, R80): the chunk is
emitted and the observer sees the table length as it now is. -/
def completeCode (w : Format) (c : Nat) (x : ByteString) (s : State) : State :=
  observe ⟨c, w, x, s.tlen⟩ (emit x s)

/-! ## The two exceptional endings, and reset -/

/-- The driver's answer to `EndOfStream` (R76, R85): the reader has left the cursor as R55 says. -/
def raiseEndOfStream (s : State) : State := setStatus .doneEos s

/-- The driver's answer to `CorruptStream(cause, c)` (R77, R86): nothing but the status surface is written. -/
def raiseCorrupt (cause : Cause) (c : Nat) (s : State) : State :=
  { s with status := .errCorrupt, cause := cause, ecode := BitVec.ofNat 12 c }

/-- Reset before a decode of `bytes` (R82, R95): the state of R24 whatever was there before, with the new run's
input. There is no other return from a terminal status (R91). The build keeps its `HAS_TRACE`. A host operation,
not a step (log 12). -/
def startDecode (bytes : ByteString) (s : State) : State :=
  { State.reset with input := bytes, hasTrace := s.hasTrace }

/-! ## What the code classes do -/

/-- The outcome of a meaning. -/
abbrev Result := Host.Outcome State Fault Refusal

/-- A row acts only in a state where its condition on value and state holds (R44; log 9). -/
def whenSelected (k : CodeClass) (c : Nat) (s : State) (t : State) : Result :=
  if k.cond s.ctx c then .next t else .refused .rowNotSelected

/-- The engine's writes for a code that appends (R65, R66 with the tail of R60): append the entry, update the
width, and make the chunk the new `PREV`. -/
def appendEntry (entry x : ByteString) (s : State) : State :=
  setPrev x (updateWidth (tabAppend entry s))

/-- `CLEAR` (R61). -/
def clearCode (s : State) : Result :=
  .next (completeCode s.width Config.clearValue [] (clearEngine s))

/-- `END` (R62, R75). -/
def endCode (s : State) : Result :=
  .next (setStatus .doneEnd (completeCode s.width Config.endValue [] s))

/-- `FIRST` (R63). -/
def firstCode (b : Byte) (s : State) : Result :=
  whenSelected .first b.toNat s
    (completeCode s.width b.toNat (literalEntry b) (setPrev (literalEntry b) s))

/-- `IDX` once the entry `x` of index `c` has been read (R65). -/
def indexCode (c : Nat) (x : ByteString) (s : State) : State :=
  completeCode s.width c x (appendEntry (extend s.prev x) x s)

/-- `LIT`: `IDX` with a fixed entry (R65). -/
def litCode (b : Byte) (s : State) : Result :=
  whenSelected .lit b.toNat s (indexCode b.toNat (literalEntry b) s)

/-- `REF`: `IDX` with an appended entry (R65); the row's condition says that entry exists. -/
def refCode (c : Nat) (s : State) : Result :=
  match tabRead c s with
  | some x => whenSelected .ref c s (indexCode c x s)
  | none => .refused .rowNotSelected

/-- `KWK` (R66). -/
def kwkCode (c : Nat) (s : State) : Result :=
  whenSelected .kwk c s
    (completeCode s.width c (kwkString s) (appendEntry (kwkString s) (kwkString s) s))

/-- The three illegal classes take the `CorruptStream` exception (R64, R67, R69). -/
def corruptCode (k : CodeClass) (cause : Cause) (c : Nat) (s : State) : Result :=
  whenSelected k c s (raiseCorrupt cause c s)

/-! ## Placing a word where the next step reads -/

/-- The stream with these bits at the cursor: the bits before and after them stay, and a stream that was shorter
grows to whole bytes. The buffered byte holds its share of them. -/
def placeBits (bits : List Bool) (s : State) : State :=
  let kept := (bitsOfByte s.buf).take s.bpos
  let later := (bitsOfByte s.buf ++ bitsOfBytes (unread s)).drop (s.bpos + bits.length)
  match packBits (kept ++ bits ++ later) with
  | [] => s
  | b :: rest =>
    { s with
      buf := b
      input := s.input.take (s.ipos - 1) ++ (if s.ipos = 0 then [] else [b]) ++ rest }

/-- The engine as a format needs it to be read: as it is when `WIDTH` is that format; else the shortest table of
that format, of two-byte entries, or for 9 bits the cleared engine (log 10). -/
def engineFor (f : Format) (s : State) : State :=
  if s.width = f then s
  else if f = .w9 then clearEngine s
  else { s with width := f, tab := List.replicate (f.minTlen - Config.firstDyn) [0, 0], prev := [0] }

/-- A running decoder about to read the word `w` in format `f`. -/
def placeWord (f : Format) (w : Nat) (s : State) : State :=
  placeBits (bitsOfNat f.bits w) (engineFor f { s with status := .run, cause := .noCause, ecode := 0 })

end Sys2Proof.Machine
end

