-- ==== Sys2Proof/Machine/Control.lean ====
section
/-! DEFINITION. The control codes CLEAR (R61) and END (R62, R75), in every format. -/

namespace Sys2Proof.Machine

/-- CLR, 9 bits (R61). -/
def execClrW9 (s : State) : Result := clearCode s

/-- CLR, 10 bits (R61). -/
def execClrW10 (s : State) : Result := clearCode s

/-- CLR, 11 bits (R61). -/
def execClrW11 (s : State) : Result := clearCode s

/-- CLR, 12 bits (R61). -/
def execClrW12 (s : State) : Result := clearCode s

/-- END, 9 bits (R62). -/
def execEndW9 (s : State) : Result := endCode s

/-- END, 10 bits (R62). -/
def execEndW10 (s : State) : Result := endCode s

/-- END, 11 bits (R62). -/
def execEndW11 (s : State) : Result := endCode s

/-- END, 12 bits (R62). -/
def execEndW12 (s : State) : Result := endCode s

end Sys2Proof.Machine
end

