-- ==== Sys2Proof/Machine/FirstCode.lean ====
section
/-! DEFINITION. The first code of a clear cycle: FIRST (R63) and the illegal FIRST_NOT_LITERAL (R64), which occur in format W9 only (R44). -/

namespace Sys2Proof.Machine

/-- FIRST, 9 bits (R63). -/
def execFirstW9 (b : Byte) (s : State) : Result := firstCode b s

/-- FIRST_NOT_LITERAL, 9 bits (R64). -/
def execFirstNotLiteralW9 (c : BitVec 9) (s : State) : Result := corruptCode .firstNotLiteral .firstNotLiteral c.toNat s

end Sys2Proof.Machine
end

