-- ==== Sys2Proof/Machine/Illegal.lean ====
section
/-! DEFINITION. The illegal classes of a subsequent code: BAD_REF (R69) in every format, TABLE_FULL (R67) in W12 only (R44). -/

namespace Sys2Proof.Machine

/-- BAD_REF, 9 bits (R69). -/
def execBadRefW9 (c : BitVec 9) (s : State) : Result := corruptCode .badRef .badRef c.toNat s

/-- BAD_REF, 10 bits (R69). -/
def execBadRefW10 (c : BitVec 10) (s : State) : Result := corruptCode .badRef .badRef c.toNat s

/-- BAD_REF, 11 bits (R69). -/
def execBadRefW11 (c : BitVec 11) (s : State) : Result := corruptCode .badRef .badRef c.toNat s

/-- BAD_REF, 12 bits (R69). -/
def execBadRefW12 (c : BitVec 12) (s : State) : Result := corruptCode .badRef .badRef c.toNat s

/-- TABLE_FULL, 12 bits (R67). -/
def execTableFullW12 (c : BitVec 12) (s : State) : Result := corruptCode .tableFull .tableFull c.toNat s

end Sys2Proof.Machine
end

