-- ==== Sys2Proof/Machine/Index.lean ====
section
/-! DEFINITION. IDX (R65): LIT for the fixed entries, REF for the appended ones, in every format. -/

namespace Sys2Proof.Machine

/-- LIT, 9 bits (R65). -/
def execLitW9 (b : Byte) (s : State) : Result := litCode b s

/-- LIT, 10 bits (R65). -/
def execLitW10 (b : Byte) (s : State) : Result := litCode b s

/-- LIT, 11 bits (R65). -/
def execLitW11 (b : Byte) (s : State) : Result := litCode b s

/-- LIT, 12 bits (R65). -/
def execLitW12 (b : Byte) (s : State) : Result := litCode b s

/-- REF, 9 bits (R65). -/
def execRefW9 (c : BitVec 9) (s : State) : Result := refCode c.toNat s

/-- REF, 10 bits (R65). -/
def execRefW10 (c : BitVec 10) (s : State) : Result := refCode c.toNat s

/-- REF, 11 bits (R65). -/
def execRefW11 (c : BitVec 11) (s : State) : Result := refCode c.toNat s

/-- REF, 12 bits (R65). -/
def execRefW12 (c : BitVec 12) (s : State) : Result := refCode c.toNat s

end Sys2Proof.Machine
end

