-- ==== Sys2Proof/Machine/KwKwK.lean ====
section
/-! DEFINITION. KWK (R66): the code that names the entry it is itself about to append, in every format. -/

namespace Sys2Proof.Machine

/-- KWK, 9 bits (R66). -/
def execKwkW9 (c : BitVec 9) (s : State) : Result := kwkCode c.toNat s

/-- KWK, 10 bits (R66). -/
def execKwkW10 (c : BitVec 10) (s : State) : Result := kwkCode c.toNat s

/-- KWK, 11 bits (R66). -/
def execKwkW11 (c : BitVec 11) (s : State) : Result := kwkCode c.toNat s

/-- KWK, 12 bits (R66). -/
def execKwkW12 (c : BitVec 12) (s : State) : Result := kwkCode c.toNat s

end Sys2Proof.Machine
end

