-- ==== Sys2Proof/Machine/Dispatch.lean ====
section
/-! DEFINITION. Which meaning each instruction has: one arm per row of spec/opcode_table.json. -/

namespace Sys2Proof.Machine

def exec (i : Instr) (s : State) : Host.Outcome State Fault Refusal :=
  match i with
  | .clrW9 => Sys2Proof.Machine.execClrW9 s
  | .endW9 => Sys2Proof.Machine.execEndW9 s
  | .firstW9 b => Sys2Proof.Machine.execFirstW9 b s
  | .firstNotLiteralW9 c => Sys2Proof.Machine.execFirstNotLiteralW9 c s
  | .badRefW9 c => Sys2Proof.Machine.execBadRefW9 c s
  | .litW9 b => Sys2Proof.Machine.execLitW9 b s
  | .refW9 c => Sys2Proof.Machine.execRefW9 c s
  | .kwkW9 c => Sys2Proof.Machine.execKwkW9 c s
  | .clrW10 => Sys2Proof.Machine.execClrW10 s
  | .endW10 => Sys2Proof.Machine.execEndW10 s
  | .badRefW10 c => Sys2Proof.Machine.execBadRefW10 c s
  | .litW10 b => Sys2Proof.Machine.execLitW10 b s
  | .refW10 c => Sys2Proof.Machine.execRefW10 c s
  | .kwkW10 c => Sys2Proof.Machine.execKwkW10 c s
  | .clrW11 => Sys2Proof.Machine.execClrW11 s
  | .endW11 => Sys2Proof.Machine.execEndW11 s
  | .badRefW11 c => Sys2Proof.Machine.execBadRefW11 c s
  | .litW11 b => Sys2Proof.Machine.execLitW11 b s
  | .refW11 c => Sys2Proof.Machine.execRefW11 c s
  | .kwkW11 c => Sys2Proof.Machine.execKwkW11 c s
  | .clrW12 => Sys2Proof.Machine.execClrW12 s
  | .endW12 => Sys2Proof.Machine.execEndW12 s
  | .badRefW12 c => Sys2Proof.Machine.execBadRefW12 c s
  | .tableFullW12 c => Sys2Proof.Machine.execTableFullW12 c s
  | .litW12 b => Sys2Proof.Machine.execLitW12 b s
  | .refW12 c => Sys2Proof.Machine.execRefW12 c s
  | .kwkW12 c => Sys2Proof.Machine.execKwkW12 c s

end Sys2Proof.Machine
end

