-- ==== Sys2Proof/Machine/Step.lean ====
section
/-! DEFINITION. One step of the driver (R73), and where the host places a word for it. -/

namespace Sys2Proof.Machine

/-- `step()` (R73): read one code at the current width, decode it, run it. `EndOfStream` ends the run gracefully
before any code is fed (R76); with a terminal `STATUS` no step is defined (R79). -/
def step (s : State) : Host.Outcome State Fault Refusal :=
  match s.status with
  | .run =>
    match readBits s.width.bits s with
    | .value c s1 =>
      match decodeCode s1.ctx c with
      | .ok i => exec i s1
      | .error e => .refused (.rejected e)
    | .endOfStream s1 => .next (raiseEndOfStream s1)
    | .notAForm => .refused .readBitsOutOfRange
  | .doneEnd | .doneEos | .errCorrupt => .fault .stopped

/-- The word `w` of the opcode table stored where the next step reads (log 10). -/
def State.withFetchWord (s : State) (nbits w : Nat) : State :=
  placeWord (tableFormat s.width nbits w) w s

end Sys2Proof.Machine
end

