-- ==== Sys2Proof/Machine/Driver.lean ====
section
/-! DEFINITION. The driver's loop and the public operation `decode` (R74), and `feed` and `step` once more as the
pseudocode of R60 and R73 has them, for the claim that decoding and dispatching is the same function. -/

namespace Sys2Proof.Machine

/-- `step` repeatedly while it is defined, at most `fuel` times (R74). -/
def runSteps : Nat → State → State
  | 0, s => s
  | fuel + 1, s =>
    match step s with
    | .next t => runSteps fuel t
    | .fault _ | .refused _ => s

/-- More steps than a decode of `n` bytes can take: `floor(8n / 9) + 1` (R78). -/
def stepBound (n : Nat) : Nat := 8 * n / 9 + 1

/-- The final state of `decode(IN)` (R74): reset, then steps while `STATUS = RUN`. -/
def decodeRun (bytes : ByteString) : State :=
  runSteps (stepBound bytes.length) (startDecode bytes State.reset)

/-- `(STATUS, CAUSE, ECODE, OUT)` (R74). -/
structure DecodeResult where
  status : Status
  cause : Cause
  ecode : BitVec 12
  out : ByteString
  deriving DecidableEq, Repr

/-- What a final state shows of the result. -/
def resultOf (s : State) : DecodeResult := ⟨s.status, s.cause, s.ecode, s.out⟩

/-- `decode(IN)` (R74). -/
def decodeStream (bytes : ByteString) : DecodeResult := resultOf (decodeRun bytes)

/-- The public operation `decode(input: bytes) -> bytes` (R74): a value on either graceful ending, failure on
`CorruptStream`. -/
def decodePublic (bytes : ByteString) : Option ByteString :=
  let r := decodeStream bytes
  if r.status.success then some r.out else none

/-! ## The pseudocode of R60 and R73 -/

/-- How a `feed` ends: with a chunk and the engine updated, or by `CorruptStream` before any write (R60); or it is no
form of the operation (U10). -/
inductive FeedOutcome where
  | chunk (x : ByteString) (s : State)
  | corrupt (cause : Cause) (c : Nat)
  | notAForm
  deriving DecidableEq, Repr

/-- `feed(c)` as R60 writes it. An index below `TLEN` that is no control code has an entry; the case of none is
given as R69 words it, a reference to a slot that does not exist. A value outside 0..4095 is refused (R60, U10). A
value of `2^WIDTH` or more within 0..4095 is outside the domain R60 gives `feed`, and no rule says what it does: the
tests of R60 are applied to it as they stand (DESIGN CHOICE, log 19). The driver feeds neither. -/
def feed (c : Nat) (s : State) : FeedOutcome :=
  if 4096 ≤ c then .notAForm
  else if c = 256 then .chunk [] (clearEngine s)
  else if c = 257 then .chunk [] s
  else if s.prev = [] then
    if 258 ≤ c then .corrupt .firstNotLiteral c
    else .chunk [BitVec.ofNat 8 c] (setPrev [BitVec.ofNat 8 c] s)
  else if s.tlen < c then .corrupt .badRef c
  else if s.tlen = 4096 then .corrupt .tableFull c
  else if c < s.tlen then
    match tabRead c s with
    | some x => .chunk x (setPrev x (updateWidth (tabAppend (s.prev ++ x.take 1) s)))
    | none => .corrupt .badRef c
  else
    let x := s.prev ++ s.prev.take 1
    .chunk x (setPrev x (updateWidth (tabAppend x s)))

/-- `step()` as R73 writes it, with the observer of R80, on a running state. -/
def pseudoStep (s : State) : Result :=
  let w := s.width
  match readBits w.bits s with
  | .notAForm => .refused .readBitsOutOfRange
  | .endOfStream s1 => .next { s1 with status := .doneEos }
  | .value c s1 =>
    match feed c s1 with
    | .notAForm => .refused .feedOutOfRange
    | .corrupt cause c =>
      .next { s1 with status := .errCorrupt, cause := cause, ecode := BitVec.ofNat 12 c }
    | .chunk x s2 =>
      let s3 := { s2 with
        out := s2.out ++ x
        trace := if s2.hasTrace then s2.trace ++ [⟨c, w, x, s2.tlen⟩] else s2.trace }
      .next (if c = 257 then { s3 with status := .doneEnd } else s3)

end Sys2Proof.Machine
end

