-- ==== Sys2Proof/Machine/TestEquipment.lean ====
section
/-! DEFINITION. The spec's own test equipment, no part of the hardware and used by no step: the notation for
streams (R50), `pack` (R51), and the test-only `encode` of 95_test_vectors.md section 5 that the round trip of R83
speaks of. -/

namespace Sys2Proof.Machine

/-- A code in the notation of R50. -/
inductive StreamItem where
  | clr | endOfData | lit (b : Byte) | ref (k : Nat) | kwk (k : Nat) | code (k : Nat)
  deriving DecidableEq, Repr

/-- `REF`, `KWK` and `CODE` assemble identically, to the bare value (R50). -/
def StreamItem.value : StreamItem → Nat
  | .clr => Config.clearValue
  | .endOfData => Config.endValue
  | .lit b => b.toNat
  | .ref k => k
  | .kwk k => k
  | .code k => k

/-- The packer's copy of the decoder's width schedule: `w`, `L`, `first` (R51). -/
structure PackState where
  width : Format
  tlen : Nat
  first : Bool
  deriving DecidableEq, Repr

/-- Start with `w = 9, L = 258, first = true` (R51). -/
def PackState.start : PackState := ⟨.w9, Config.firstDyn, true⟩

/-- The update after a code (R51). -/
def PackState.after (p : PackState) (c : Nat) : PackState :=
  if c = Config.clearValue then PackState.start
  else if c = Config.endValue then p
  else if p.first then { p with first := false }
  else ⟨widthOf (p.tlen + 1), p.tlen + 1, false⟩

/-- The bits of the codes, each at the width of its turn (R51). R51 requires every code to be below `2^w` there and
says nothing of a breach: of such a code the low `w` bits are written (DESIGN CHOICE, log 18). -/
def packedBits : PackState → List Nat → List Bool
  | _, [] => []
  | p, c :: cs => bitsOfNat p.width.bits c ++ packedBits (p.after c) cs

/-- `pack(c_1 .. c_m)` (R51); for a code of `2^w` or more, which R51 excludes, the low `w` bits (DESIGN CHOICE,
log 18). -/
def pack (codes : List Nat) : ByteString := packBits (packedBits PackState.start codes)

/-- A stream in the notation of R50 as bytes; a value too wide for its turn is `pack`'s case (DESIGN CHOICE, log 18). -/
def assemble (items : List StreamItem) : ByteString := pack (items.map StreamItem.value)

/-- The variables of the test-only encoder; `dict` maps a string to its index. -/
structure EncoderState where
  codes : List Nat
  dict : List (ByteString × Nat)
  nextIndex : Nat
  held : ByteString
  deriving DecidableEq, Repr

/-- The code of a string: a byte for a one-byte string, else its index, which the algorithm only asks for when the
dictionary has it. -/
def EncoderState.codeOf (e : EncoderState) (x : ByteString) : Nat :=
  match x with
  | [b] => b.toNat
  | _ => (e.dict.lookup x).getD 0

/-- The body of the encoder's loop for the byte `ch`. -/
def EncoderState.push (e : EncoderState) (ch : Byte) : EncoderState :=
  let t := e.held ++ [ch]
  if t.length = 1 ∨ (e.dict.lookup t).isSome then { e with held := t }
  else
    let codes := e.codes ++ [e.codeOf e.held]
    if e.nextIndex + 1 = 4094 then ⟨codes ++ [Config.clearValue], [], Config.firstDyn, [ch]⟩
    else ⟨codes, e.dict ++ [(t, e.nextIndex)], e.nextIndex + 1, [ch]⟩

/-- The codes of the test-only encoder: `CLR` first, the greedy matches, `END` last. -/
def encoderCodes (bytes : ByteString) : List Nat :=
  let e := bytes.foldl EncoderState.push ⟨[Config.clearValue], [], Config.firstDyn, []⟩
  e.codes ++ (if e.held = [] then [] else [e.codeOf e.held]) ++ [Config.endValue]

/-- `encode(B)` of 95_test_vectors.md section 5. -/
def encodeStream (bytes : ByteString) : ByteString := pack (encoderCodes bytes)

end Sys2Proof.Machine
end

