-- ==== Sys2Proof/Safety.lean ====
section
/-! DEFINITION. What holds between any two steps (the invariants of 10_state.md and R71), in the terms the claims
use, and what counts as a step that does not stop. -/

namespace Sys2Proof.Machine

/-- The reader between steps (R12, R13, R24, R59): the cursor in its range, the buffer fully consumed until the
first pull, and afterwards `BUF` the last byte pulled. -/
structure State.ReaderInv (s : State) : Prop where
  bpos_le : s.bpos ≤ 8
  ipos_le : s.ipos ≤ s.input.length
  nothing_pulled : s.ipos = 0 → s.bpos = 8
  buf_is_last : 0 < s.ipos → s.input[s.ipos - 1]? = some s.buf

/-- The engine between steps: the table's form (R18, R19c), the width the one the table length forces (R14), an
empty `PREV` only with a cleared table (R63b), and the bound on `PREV` (R71). -/
structure State.EngineInv (s : State) : Prop where
  table_wf : Memory.wf s = true
  width_forced : s.width = widthOf s.tlen
  first_cleared : s.prev = [] → s.tab = []
  prev_le : s.prev.length + Config.firstDyn ≤ s.tlen + 1

/-- The status surface between steps: `CAUSE` is `NONE` and `ECODE` is 0 except with `ERR_CORRUPT` (R23). -/
structure State.StatusInv (s : State) : Prop where
  cause_iff : s.status = .errCorrupt ↔ s.cause ≠ .noCause
  ecode_zero : s.status ≠ .errCorrupt → s.ecode = 0

/-- The invariant of the machine. -/
structure State.Inv (s : State) : Prop where
  reader : s.ReaderInv
  engine : s.EngineInv
  status : s.StatusInv

/-- R72: `x` is the string of some code below `bound`, so a build can hold a link to it in place of its bytes. -/
def State.StringBelow (s : State) (bound : Nat) (x : ByteString) : Prop :=
  ∃ c, c < bound ∧ tabRead c s = some x

/-- R72: every appended entry, less its last byte, is the string of a code below its own index, and `PREV`, when
there is one, is the string of a code of the table. -/
structure State.Linked (s : State) : Prop where
  entries : ∀ k x, s.tab[k]? = some x → s.StringBelow (Config.firstDyn + k) x.dropLast
  previous : s.prev ≠ [] → s.StringBelow s.tlen s.prev

/-- The step does not stop: it answers a next state. -/
def Goes (r : Result) : Prop := ∃ t, r = .next t

end Sys2Proof.Machine
end

