-- ==== Sys2Proof/Certificates/Slice0/Obligations.lean ====
section
/-! DEFINITION. The statements about the machine, from the numbered rules of spec/. -/

/-! ## Words the statements use -/

namespace Sys2Proof.Claims

open Sys2Proof Sys2Proof.Machine

/-- Stream bit `k` (R28): bit `7 - (k mod 8)` of byte `k div 8`. -/
def streamBit (bytes : ByteString) (k : Nat) : Bool := (bytes[k / 8]?.getD 0).getLsbD (7 - k % 8)

/-- The number in the `n` stream bits from `k` on, the first the most significant (R59). -/
def streamField (bytes : ByteString) (k n : Nat) : Nat :=
  ∑ j ∈ Finset.range n, (streamBit bytes (k + j)).toNat * 2 ^ (n - 1 - j)

/-- The code the next step reads, when that many bits are left. -/
def nextCode (s : State) : Nat := streamField s.input s.cursor s.width.bits

/-- Enough bits are left for the next code. -/
def codeLeft (s : State) : Prop := s.cursor + s.width.bits ≤ 8 * s.inputLength

/-- The observer's records after one more, in a build that has an observer (R80). -/
def traced (s : State) (r : TraceRecord) : List TraceRecord :=
  if s.hasTrace then s.trace ++ [r] else s.trace

/-- The number in the state element that a status signal shows (R23, R87). -/
def elementValue (s : State) : StatusSignal → Nat
  | .status => s.status.bits.toNat
  | .cause => s.cause.bits.toNat
  | .ecode => s.ecode.toNat
  | .width => s.width.bits
  | .tlen => s.tlen

/-- The classes that append an entry. -/
def Appends (k : CodeClass) : Prop := k = .lit ∨ k = .ref ∨ k = .kwk

/-- The illegal classes (R47). -/
def Illegal (k : CodeClass) : Prop := k = .firstNotLiteral ∨ k = .badRef ∨ k = .tableFull

/-- A state without its observer, for comparing builds (R80). -/
def eraseObserver (s : State) : State := { s with hasTrace := false, trace := [] }

/-- A state without its observer and its engine, for comparing what CLEAR leaves (R83c). -/
def eraseEngine (s : State) : State := { eraseObserver s with tab := [], prev := [], width := .w9 }

/-- A function on states under an outcome. -/
def mapNext (f : State → State) : Result → Result
  | .next s => .next (f s)
  | .fault e => .fault e
  | .refused e => .refused e

/-- `n` codes in a row, each naming the entry it is about to append (R66c, R71). -/
def kwkRun : Nat → State → Option State
  | 0, s => some s
  | n + 1, s =>
    match decodeCode s.ctx s.tlen with
    | .ok i =>
      match exec i s with
      | .next t => kwkRun n t
      | .fault _ | .refused _ => none
    | .error _ => none

/-- Codes handed to the decoder one after another without a stream, while it runs. -/
def feedCodes : List Nat → State → Option State
  | [], s => some s
  | c :: cs, s =>
    if s.status ≠ .run then none
    else
      match decodeCode s.ctx c with
      | .ok i =>
        match exec i s with
        | .next t => feedCodes cs t
        | .fault _ | .refused _ => none
      | .error _ => none

end Sys2Proof.Claims

open Sys2Proof Sys2Proof.Machine Sys2Proof.Claims

/-- Nine words, one for each code class, laid out bit by bit as R41 and the opcode table give them and packed first
bit first, decode to the instruction of that class in a context that selects it; code 258 is read in 9 bits as
KWK and in 12 bits as REF. (30_encoding.md R41, 30_encoding.md R44, 95_test_vectors.md V1) -/
def Obligations.SpecWordsDecode : Prop :=
  decodeBytes ⟨.w9, true, 258⟩ [0b10000000, 0b00000000] = .ok (.clrW9, List.replicate 7 false) ∧
  decodeBytes ⟨.w12, false, 4096⟩ [0b00010000, 0b00010000] = .ok (.endW12, List.replicate 4 false) ∧
  decodeBytes ⟨.w9, true, 258⟩ [0b00010110, 0b10000000] = .ok (.firstW9 45, List.replicate 7 false) ∧
  decodeBytes ⟨.w9, true, 258⟩ [0b10000001, 0b00000000] = .ok (.firstNotLiteralW9 258, List.replicate 7 false) ∧
  decodeBytes ⟨.w10, false, 600⟩ [0b10010110, 0b01000000] = .ok (.badRefW10 601, List.replicate 6 false) ∧
  decodeBytes ⟨.w12, false, 4096⟩ [0b11111111, 0b11110000] = .ok (.tableFullW12 4095, List.replicate 4 false) ∧
  decodeBytes ⟨.w11, false, 1500⟩ [0b00001000, 0b00100000] = .ok (.litW11 65, List.replicate 5 false) ∧
  decodeBytes ⟨.w12, false, 2047⟩ [0b00010000, 0b00100000] = .ok (.refW12 258, List.replicate 4 false) ∧
  decodeBytes ⟨.w9, false, 258⟩ [0b10000001, 0b00000000] = .ok (.kwkW9 258, List.replicate 7 false)

/-- For every well-formed instruction of every row and every context that selects it (its format is the width in
force, its row's condition holds, and the table length is at least the 258 slots of a cleared table), decoding
the instruction's bits followed by any other bits gives that instruction and exactly those other bits.
(30_encoding.md R41, 30_encoding.md R43, 30_encoding.md R44, 30_encoding.md R46) -/
def Obligations.DecodeOfEncodeIsIdentity : Prop :=
  ∀ (i : Instr) (ctx : DecodeCtx) (rest : List Bool), i.wf = true → i.selected ctx = true →
    258 ≤ ctx.tlen → decodeBits ctx (encodeBits i ++ rest) = .ok (i, rest)

/-- In every consistent context (table length 258 to 4096, the width it forces, an empty PREV only with a cleared
table), when the decoder accepts a bit string, the instruction is well-formed and selected by the context, and
its bits followed by the rest are the bit string. (30_encoding.md R41, 30_encoding.md R44, 30_encoding.md R46) -/
def Obligations.EncodeOfDecodeIsIdentity : Prop :=
  ∀ (ctx : DecodeCtx) (bits rest : List Bool) (i : Instr), ctx.ok = true →
    decodeBits ctx bits = .ok (i, rest) →
    i.wf = true ∧ i.selected ctx = true ∧ encodeBits i ++ rest = bits

/-- In every consistent context, every value that fits the width decodes to a well-formed instruction with that
value whose row the context selects, and no other instruction with that value is selected. (30_encoding.md R44,
30_encoding.md R48) -/
def Obligations.EveryCodeInExactlyOneRow : Prop :=
  ∀ (ctx : DecodeCtx) (c : Nat), ctx.ok = true → c < 2 ^ ctx.width.bits →
    ∃ i, decodeCode ctx c = .ok i ∧ i.code = c ∧ i.wf = true ∧ i.selected ctx = true ∧
      ∀ j : Instr, j.code = c → j.selected ctx = true → j = i

/-- In every consistent context and for every value that fits the width, the decoder answers an instruction exactly
when the first row of that format, by ascending priority, whose mask, match and cond columns hold answers it.
(30_encoding.md R44, opcode_table.json) -/
def Obligations.OpcodeTableInPriorityOrder : Prop :=
  ∀ (ctx : DecodeCtx) (c : Nat) (i : Instr), ctx.ok = true → c < 2 ^ ctx.width.bits →
    (decodeCode ctx c = .ok i ↔ tableDecode ctx c = some i)

/-- In every consistent context of width 9, 10 or 11 the value 2^w - 1 decodes to BAD_REF, or to FIRST_NOT_LITERAL
when PREV is empty; and at table length 4095 the value 4095 decodes to KWK. (30_encoding.md R47) -/
def Obligations.AllOnesIllegalBelowTwelveBits : Prop :=
  (∀ ctx : DecodeCtx, ctx.ok = true → ctx.width ≠ .w12 →
    ∃ i, decodeCode ctx (2 ^ ctx.width.bits - 1) = .ok i ∧
      i.cls = if ctx.prevEmpty then .firstNotLiteral else .badRef) ∧
  decodeCode ⟨.w12, false, 4095⟩ 4095 = .ok (.kwkW12 4095)

/-- From every state whose reader registers are as between steps, for n from 1 to 32: with n bits left, read_bits(n)
answers the sum of bit(k+j) * 2^(n-1-j), and afterwards the cursor is k + n, IPOS = ceil((k+n)/8), BPOS = 8 -
(8*IPOS - (k+n)), BPOS = 8 when k + n is a multiple of 8, BUF = IN[IPOS-1] whenever a byte was pulled, nothing
else changed, and the reader registers are again as between steps, so the next call continues at k + n; with
fewer left it raises EndOfStream with IPOS = N, BPOS = 8 and the reader registers again as between steps. The
law is what R59 derives from R52 to R55; that BUF after EndOfStream is the last byte pulled is the model's
reading of R55 (log 16). (40_bitreader.md R52, 40_bitreader.md R53, 40_bitreader.md R54, 40_bitreader.md R55,
40_bitreader.md R59, notes/assumptions/16.md) -/
def Obligations.ReadBitsFollowsStreamLaw : Prop :=
  ∀ (s : State) (n : Nat), s.ReaderInv → 1 ≤ n → n ≤ 32 →
    (s.cursor + n ≤ 8 * s.inputLength →
      ∃ t, readBits n s = .value (streamField s.input s.cursor n) t ∧
        t.cursor = s.cursor + n ∧
        t.ipos = (s.cursor + n + 7) / 8 ∧
        t.bpos = 8 - (8 * t.ipos - (s.cursor + n)) ∧
        (8 ∣ s.cursor + n → t.bpos = 8) ∧
        (t.ipos ≠ s.ipos → t.input[t.ipos - 1]? = some t.buf) ∧
        (t.ipos = s.ipos → t.buf = s.buf) ∧
        t.ReaderInv ∧
        t = { s with ipos := t.ipos, buf := t.buf, bpos := t.bpos }) ∧
    (8 * s.inputLength < s.cursor + n →
      ∃ t, readBits n s = .endOfStream t ∧ t.ipos = s.inputLength ∧ t.bpos = 8 ∧ t.ReaderInv ∧
        t = { s with ipos := t.ipos, buf := t.buf, bpos := t.bpos })

/-- When m bits are needed and at least m of BUF are unconsumed, the pass appends bits 7-BPOS down to 8-BPOS-m of
BUF below what is accumulated, adds m to BPOS, which may become 8, and changes nothing else: no byte is pulled,
whatever bytes are left. (R53) -/
def Obligations.FinishingPassTakesHighBits : Prop :=
  ∀ (s : State) (rest : ByteString) (m v : Nat), s.bpos ≤ 8 → m ≤ 8 - s.bpos →
    readLoop rest m v s =
      .value (v * 2 ^ m + s.buf.toNat / 2 ^ (8 - s.bpos - m) % 2 ^ m) { s with bpos := s.bpos + m }

/-- When more bits are needed than remain, the pass appends all r = 8 - BPOS unconsumed bits of BUF below the
accumulated result, the next byte becomes BUF and BPOS becomes 0; a successful read_bits(n) makes no pull when n
<= r0 and otherwise exactly ceil((n - r0)/8), at most 4, and for n from 9 to 12 always 1 or 2. The pull counts
are what R54 derives. (40_bitreader.md R52, 40_bitreader.md R54) -/
def Obligations.ContinuingPassAndPullCount : Prop :=
  (∀ (s : State) (b : Byte) (rest : ByteString) (m v : Nat), 8 - s.bpos < m →
    readLoop (b :: rest) m v s =
      readLoop rest (m - (8 - s.bpos)) (v * 2 ^ (8 - s.bpos) + s.buf.toNat % 2 ^ (8 - s.bpos))
        { s with ipos := s.ipos + 1, buf := b, bpos := 0 }) ∧
  (∀ (s t : State) (n v : Nat), readBits n s = .value v t →
    t.ipos = s.ipos + (if n ≤ 8 - s.bpos then 0 else (n - (8 - s.bpos) + 7) / 8) ∧
    t.ipos ≤ s.ipos + 4 ∧
    (9 ≤ n → n ≤ 12 → t.ipos = s.ipos + 1 ∨ t.ipos = s.ipos + 2))

/-- From every state whose reader registers are as between steps, for n from 1 to 32: read_bits(n) raises
EndOfStream exactly when fewer than n bits are left; then IPOS = N, BPOS = 8, BUF is the last byte of the input
(as before when nothing was pulled; how the words 'BUF unchanged' are read is the model's, log 16), and a
further read_bits raises it again and changes nothing. (40_bitreader.md R55, 92_eei_decisions.md D8,
95_test_vectors.md section 2) -/
def Obligations.ExhaustionExactlyWhenShort : Prop :=
  ∀ (s : State) (n : Nat), s.ReaderInv → 1 ≤ n → n ≤ 32 →
    ((∃ t, readBits n s = .endOfStream t) ↔ 8 * s.inputLength - s.cursor < n) ∧
    (∀ t, readBits n s = .endOfStream t →
      t = { s with ipos := s.inputLength, bpos := 8, buf := s.input.getLastD s.buf } ∧
      ∀ m, 1 ≤ m → m ≤ 32 → readBits m t = .endOfStream t)

/-- Whatever read_bits answers, its state differs from the one before in BUF, BPOS and IPOS at most; and after a
successful call from a state whose reader registers are as between steps, at least one bit of the buffered byte
is consumed, so no byte beyond the one that holds the last returned bit has been pulled. (R56) -/
def Obligations.ReadBitsTouchesOnlyTheReader : Prop :=
  ∀ (s t : State) (n v : Nat),
    ((readBits n s = .value v t ∨ readBits n s = .endOfStream t) →
      t = { s with ipos := t.ipos, buf := t.buf, bpos := t.bpos }) ∧
    (s.ReaderInv → readBits n s = .value v t →
      0 < t.bpos ∧ 8 * (t.ipos - 1) < s.cursor + n ∧ s.cursor + n ≤ 8 * t.ipos)

/-- From every state, when read_bits(n) answers a value, the value is below 2^n. (40_bitreader.md R57) -/
def Obligations.ReadBitsResultFits : Prop :=
  ∀ (s t : State) (n v : Nat), readBits n s = .value v t → v < 2 ^ n

/-- For every state, read_bits(n) is no form of the operation exactly when n < 1 or n > 32; every code width is 9,
10, 11 or 12. (R58) -/
def Obligations.ReadOutsideRangeRefused : Prop :=
  (∀ (n : Nat) (s : State), readBits n s = .notAForm ↔ n < 1 ∨ 32 < n) ∧
  ∀ f : Format, f.bits = 9 ∨ f.bits = 10 ∨ f.bits = 11 ∨ f.bits = 12

/-- In every state: indices 0..255 give the one-byte string of the index, 256 and 257 hold nothing, indices from 258
to below TLEN give the appended entry, which exists, and indices from TLEN up hold nothing. (20_memory.md R33,
10_state.md R16, 10_state.md R17, 10_state.md R18) -/
def Obligations.TableReadByIndex : Prop :=
  ∀ (s : State) (i : Nat),
    (i ≤ 255 → tabRead i s = some [BitVec.ofNat 8 i]) ∧
    (i = 256 ∨ i = 257 → tabRead i s = none) ∧
    (258 ≤ i → i < s.tlen → ∃ x, s.tab[i - 258]? = some x ∧ tabRead i s = some x) ∧
    (s.tlen ≤ i → tabRead i s = none)

/-- For every state and string: after TabAppend the index that was TLEN reads the string, TLEN is one greater, every
other index reads as before, and nothing but the table changes. (20_memory.md R34, 20_memory.md R38) -/
def Obligations.TableAppendWritesOneEntry : Prop :=
  ∀ (s : State) (x : ByteString),
    tabRead s.tlen (tabAppend x s) = some x ∧
    (tabAppend x s).tlen = s.tlen + 1 ∧
    (∀ i, i ≠ s.tlen → tabRead i (tabAppend x s) = tabRead i s) ∧
    tabAppend x s = { s with tab := (tabAppend x s).tab }

/-- For CLR in each format (clrW9, clrW10, clrW11, clrW12) and every state, exec answers the next state in which no
dynamic entry exists (TLEN 258), WIDTH is 9, PREV is empty, a build with an observer has its record, and
everything else, the cursor and OUT among it, is unchanged. (R61) -/
def Obligations.ClearCodeResult : Prop :=
  ∀ (i : Instr) (s : State), i.cls = .clr →
    exec i s = .next { s with
      tab := [], width := .w9, prev := [], trace := traced s ⟨256, s.width, [], 258⟩ }

/-- For END in each format (endW9, endW10, endW11, endW12) and every state, exec answers the next state in which
STATUS is DONE_END, a build with an observer has its record, and everything else, TLEN, TAB, WIDTH, PREV and OUT
among it, is unchanged. (R62) -/
def Obligations.EndCodeResult : Prop :=
  ∀ (i : Instr) (s : State), i.cls = .endOfData →
    exec i s = .next { s with status := .doneEnd, trace := traced s ⟨257, s.width, [], s.tlen⟩ }

/-- For FIRST (firstW9) with every byte and every state with an empty PREV, exec answers the next state in which OUT
has the byte at its end, PREV is that one-byte string, a build with an observer has its record, and everything else,
table and width among it, is unchanged; between steps TLEN is then 258 (an inference R63 itself derives in its
corner case b). (41_engine.md R63) -/
def Obligations.FirstCodeResult : Prop :=
  ∀ (b : Byte) (s : State), s.prev = [] →
    exec (.firstW9 b) s = .next { s with
      prev := [b], out := s.out ++ [b], trace := traced s ⟨b.toNat, s.width, [b], s.tlen⟩ } ∧
    (s.EngineInv → s.tlen = 258)

/-- For FIRST_NOT_LITERAL (firstNotLiteralW9) with every value from 258 up and every state with an empty PREV, exec
answers the next state in which STATUS is ERR_CORRUPT, CAUSE is FIRST_NOT_LITERAL, ECODE is the value, and
everything else is unchanged. (R64) -/
def Obligations.FirstNotLiteralResult : Prop :=
  ∀ (c : BitVec 9) (s : State), s.prev = [] → 258 ≤ c.toNat →
    exec (.firstNotLiteralW9 c) s = .next { s with
      status := .errCorrupt, cause := .firstNotLiteral, ecode := BitVec.ofNat 12 c.toNat }

/-- For LIT (litW9 to litW12) and REF (refW9 to refW12, value from 258 up), in every state with a PREV, a value
below TLEN, TLEN below 4096, and an entry x with a first byte b: exec answers the next state in which PREV ++
[b] is appended, WIDTH is width_of of the new TLEN, PREV is x, OUT has x at its end, a build with an observer
has its record, and everything else is unchanged; for LIT the entry is the byte, and between steps every such
entry exists and has a first byte. (R65) -/
def Obligations.IndexCodeResult : Prop :=
  ∀ (i : Instr) (s : State), i.cls = .lit ∨ (i.cls = .ref ∧ 258 ≤ i.code) →
    s.prev ≠ [] → i.code < s.tlen → s.tlen < 4096 →
    (∀ (b : Byte) (y : ByteString), tabRead i.code s = some (b :: y) →
      exec i s = .next { s with
        tab := s.tab ++ [s.prev ++ [b]],
        width := widthOf (s.tlen + 1),
        prev := b :: y,
        out := s.out ++ b :: y,
        trace := traced s ⟨i.code, s.width, b :: y, s.tlen + 1⟩ }) ∧
    (i.cls = .lit → tabRead i.code s = some [BitVec.ofNat 8 i.code]) ∧
    (s.EngineInv → ∃ b y, tabRead i.code s = some (b :: y))

/-- For KWK (kwkW9 to kwkW12) in every state where PREV is b :: p, the value is TLEN and TLEN is below 4096 (4095
included), exec answers the next state in which b :: p ++ [b] is appended at index TLEN, WIDTH is width_of of
the new TLEN, PREV is that string, OUT has it at its end, a build with an observer has its record, and
everything else is unchanged. (R66) -/
def Obligations.KwkCodeResult : Prop :=
  ∀ (i : Instr) (s : State) (b : Byte) (p : ByteString), i.cls = .kwk →
    s.prev = b :: p → i.code = s.tlen → s.tlen < 4096 →
    exec i s = .next { s with
      tab := s.tab ++ [b :: p ++ [b]],
      width := widthOf (s.tlen + 1),
      prev := b :: p ++ [b],
      out := s.out ++ (b :: p ++ [b]),
      trace := traced s ⟨i.code, s.width, b :: p ++ [b], s.tlen + 1⟩ }

/-- For BAD_REF (badRefW9 to badRefW12) in every state with a PREV and a value above TLEN, exec answers the next
state in which STATUS is ERR_CORRUPT, CAUSE is BAD_REF, ECODE is the value, and everything else is unchanged.
(R69) -/
def Obligations.BadRefResult : Prop :=
  ∀ (i : Instr) (s : State), i.cls = .badRef → s.prev ≠ [] → s.tlen < i.code →
    exec i s = .next { s with
      status := .errCorrupt, cause := .badRef, ecode := BitVec.ofNat 12 i.code }

/-- For TABLE_FULL (tableFullW12) in every state with a PREV, TLEN = 4096, and a value that is at most TLEN and no
control code, exec answers the next state in which STATUS is ERR_CORRUPT, CAUSE is TABLE_FULL, ECODE is the value,
and everything else is unchanged; CLR and END still complete there; and between steps the width is then 12, so no
value reaches TLEN and neither KWK nor BAD_REF can be selected (this last clause is what R67 itself derives).
(41_engine.md R67) -/
def Obligations.TableFullResult : Prop :=
  ∀ (c : BitVec 12) (s : State), s.prev ≠ [] → s.tlen = 4096 → c.toNat ≠ 256 → c.toNat ≠ 257 →
    exec (.tableFullW12 c) s = .next { s with
      status := .errCorrupt, cause := .tableFull, ecode := BitVec.ofNat 12 c.toNat } ∧
    Goes (exec .clrW12 s) ∧ Goes (exec .endW12 s) ∧
    (s.EngineInv → s.width = .w12 ∧
      ∀ i : Instr, i.cls = .kwk ∨ i.cls = .badRef → i.selected s.ctx = false)

/-- For every instruction and every state, exec answers a next state exactly when the condition of the instruction's
row holds there, and otherwise the refusal rowNotSelected, which is the model's choice (log 9); it never faults.
(30_encoding.md R44, notes/assumptions/9.md) -/
def Obligations.ExecRunsExactlySelectedRows : Prop :=
  ∀ (i : Instr) (s : State),
    (i.cls.cond s.ctx i.code = true → Goes (exec i s)) ∧
    (i.cls.cond s.ctx i.code = false → exec i s = .refused .rowNotSelected)

/-- When exec answers a next state, for every instruction: IN, the reader registers and the build are unchanged;
only CLR, LIT, REF and KWK change the table or the width; LIT, REF and KWK leave every index but the old TLEN
reading as before; only CLR, FIRST, LIT, REF and KWK change PREV; CLR, END and the illegal classes leave OUT;
only the illegal classes write CAUSE and ECODE, and only they and END write STATUS; the illegal classes leave
the observer's records. (10_state.md section 1, 20_memory.md section 3, 41_engine.md R60, 41_engine.md R61,
41_engine.md R62, 41_engine.md R63, 41_engine.md R65, 41_engine.md R66, 60_exceptions.md R90) -/
def Obligations.InstructionFrame : Prop :=
  ∀ (i : Instr) (s t : State), exec i s = .next t →
    (t.input = s.input ∧ t.ipos = s.ipos ∧ t.buf = s.buf ∧ t.bpos = s.bpos ∧ t.hasTrace = s.hasTrace) ∧
    (i.cls ≠ .clr → ¬ Appends i.cls → t.tab = s.tab ∧ t.width = s.width) ∧
    (Appends i.cls → t.tlen = s.tlen + 1 ∧ ∀ j, j ≠ s.tlen → tabRead j t = tabRead j s) ∧
    (i.cls ≠ .clr → i.cls ≠ .first → ¬ Appends i.cls → t.prev = s.prev) ∧
    (i.cls = .clr ∨ i.cls = .endOfData ∨ Illegal i.cls → t.out = s.out) ∧
    (¬ Illegal i.cls → t.cause = s.cause ∧ t.ecode = s.ecode) ∧
    (¬ Illegal i.cls → i.cls ≠ .endOfData → t.status = s.status) ∧
    (Illegal i.cls → t.trace = s.trace)

/-- From every state whose engine is as between steps, after an instruction that appends (LIT, REF, KWK): WIDTH is
10 if TLEN = 511, 11 if TLEN = 1023, 12 if TLEN = 2047, and otherwise unchanged, which is the same as width_of(TLEN)
(an inference R68 itself derives); an instruction that does not append, CLR apart, leaves it. (41_engine.md R68,
92_eei_decisions.md D11) -/
def Obligations.WidthChangesAtThresholds : Prop :=
  ∀ (i : Instr) (s t : State), s.EngineInv → exec i s = .next t →
    (Appends i.cls →
      t.width = (if t.tlen = 511 then .w10 else if t.tlen = 1023 then .w11
        else if t.tlen = 2047 then .w12 else s.width) ∧
      t.width = widthOf t.tlen) ∧
    (¬ Appends i.cls → i.cls ≠ .clr → t.width = s.width)

/-- Two states that agree on everything but table, PREV, width and observer are led by CLR, in any formats, to
states that agree on everything but the observer. (42_driver.md R83, 41_engine.md R61) -/
def Obligations.ClearForgetsTheTable : Prop :=
  ∀ (i j : Instr) (s t : State), i.cls = .clr → j.cls = .clr → eraseEngine s = eraseEngine t →
    mapNext eraseObserver (exec i s) = mapNext eraseObserver (exec j t) ∧ Goes (exec i s)

/-- From a cleared 9-bit engine with PREV = b, n codes in a row that each name the entry about to be appended, up to
3838, all complete; entry 258 + k is then k + 2 copies of b, PREV is n + 1 copies, TLEN is 258 + n and WIDTH the
width it forces. (41_engine.md R66, 41_engine.md R71) -/
def Obligations.KwkRunReachesTheLengthBound : Prop :=
  ∀ (n : Nat) (s : State) (b : Byte), n ≤ 3838 → s.tab = [] → s.prev = [b] → s.width = .w9 →
    ∃ t, kwkRun n s = some t ∧ t.tlen = 258 + n ∧
      t.tab = (List.range n).map (fun k => List.replicate (k + 2) b) ∧
      t.prev = List.replicate (n + 1) b ∧ t.width = widthOf (258 + n)

/-- From every running state whose reader registers are as between steps: when the bits from the cursor on decode to
an instruction i, step is exec of i on the state t that differs only in the reader registers, with the cursor
WIDTH bits further, IPOS = ceil(cursor/8), and the undecoded bits those from the new cursor on. (42_driver.md
R73, 30_encoding.md R42) -/
def Obligations.StepRunsTheDecodedInstruction : Prop :=
  ∀ (s : State) (i : Instr) (rest : List Bool), s.ReaderInv → s.status = .run →
    decodeBits s.ctx ((bitsOfBytes s.input).drop s.cursor) = .ok (i, rest) →
    ∃ t, step s = exec i t ∧
      t = { s with ipos := t.ipos, buf := t.buf, bpos := t.bpos } ∧
      t.cursor = s.cursor + s.width.bits ∧ t.ipos = (t.cursor + 7) / 8 ∧
      rest = (bitsOfBytes s.input).drop t.cursor

/-- From every running state that meets the machine's invariant, step answers what the pseudocode of R73, with feed
as R60 writes it (the tests in its order, first match wins), answers. (R60, R73) -/
def Obligations.StepIsThePseudocode : Prop :=
  ∀ s : State, s.Inv → s.status = .run → step s = pseudoStep s

/-- For every state, feed(c) is no form of the operation exactly when c is outside 0..4095; that it is refused there
is U10's, and that it is not refused for a c from 2^WIDTH to 4095, which R60 puts outside its domain, is the model's
choice (log 19); and a code read at any width is within that range, so the driver feeds no such value. (41_engine.md
R60, 93_implementation_defined.md U10, notes/assumptions/19.md) -/
def Obligations.FeedOutsideRangeRefused : Prop :=
  (∀ (c : Nat) (s : State), feed c s = .notAForm ↔ 4095 < c) ∧
  ∀ (f : Format) (s t : State) (c : Nat), readBits f.bits s = .value c t → c ≤ 4095

/-- From every running state whose reader registers are as between steps, when fewer than WIDTH bits are left, at a
code boundary or in mid-code, step answers the next state with STATUS = DONE_EOS, IPOS = N, BPOS = 8 and BUF the
last input byte (as before when nothing was pulled; that reading of R55's 'BUF unchanged' is the model's, log
16); WIDTH, TLEN, TAB, PREV, OUT and everything else keep their values; with an empty input this is the first
step of a decode. (42_driver.md R76, 60_exceptions.md R85, 40_bitreader.md R55, notes/assumptions/16.md) -/
def Obligations.ExhaustedInputEndsGracefully : Prop :=
  (∀ s : State, s.ReaderInv → s.status = .run → ¬ codeLeft s →
    step s = .next { s with
      status := .doneEos, ipos := s.inputLength, bpos := 8, buf := s.input.getLastD s.buf }) ∧
  (∀ s : State, step (startDecode [] s) = .next { startDecode [] s with status := .doneEos })

/-- From every running state that meets the invariant: step answers a state with ERR_CORRUPT exactly when a whole
code is left, it is no control code, and either PREV is empty and it is 258 or more, or PREV is not empty and it
exceeds TLEN or TLEN is 4096; then the cursor stands WIDTH bits further, CAUSE names the condition, ECODE is the
code, and everything else is as before the step. (30_encoding.md R47, 42_driver.md R77, 60_exceptions.md R86,
60_exceptions.md R89, 60_exceptions.md R90, 70_reset_and_hazards.md R103) -/
def Obligations.CorruptExactlyOnIllegalCodes : Prop :=
  ∀ s t : State, s.Inv → s.status = .run → step s = .next t →
    (t.status = .errCorrupt ↔
      codeLeft s ∧ nextCode s ≠ 256 ∧ nextCode s ≠ 257 ∧
        ((s.prev = [] ∧ 258 ≤ nextCode s) ∨ (s.prev ≠ [] ∧ (s.tlen < nextCode s ∨ s.tlen = 4096)))) ∧
    (t.status = .errCorrupt →
      t.cursor = s.cursor + s.width.bits ∧
      t = { s with
        ipos := t.ipos, buf := t.buf, bpos := t.bpos
        status := .errCorrupt
        cause := if s.prev = [] then .firstNotLiteral
          else if s.tlen < nextCode s then .badRef else .tableFull
        ecode := BitVec.ofNat 12 (nextCode s) })

/-- From every running state that meets the invariant: step answers a state with DONE_END exactly when a whole code
is left and it is 257; then OUT, table, width and PREV are unchanged, the cursor stands just past the code and
IPOS is the least number of bytes that hold it. (42_driver.md R75, 30_encoding.md R49, 41_engine.md R62,
70_reset_and_hazards.md R102) -/
def Obligations.DoneEndExactlyOnEndCode : Prop :=
  ∀ s t : State, s.Inv → s.status = .run → step s = .next t →
    (t.status = .doneEnd ↔ codeLeft s ∧ nextCode s = 257) ∧
    (t.status = .doneEnd →
      t.out = s.out ∧ t.tab = s.tab ∧ t.width = s.width ∧ t.prev = s.prev ∧
      t.cursor = s.cursor + s.width.bits ∧ t.ipos = (t.cursor + 7) / 8)

/-- From every state that meets the invariant, when step answers a state that is not DONE_EOS, the cursor has moved
by exactly the WIDTH before the step, IPOS is ceil(cursor/8) and one or two greater, and IN and the build are
unchanged. (10_state.md R11, 20_memory.md R30, 20_memory.md R38, 42_driver.md R73, 70_reset_and_hazards.md R98,
70_reset_and_hazards.md R104) -/
def Obligations.StepAdvancesByTheOldWidth : Prop :=
  ∀ s t : State, s.Inv → step s = .next t → t.status ≠ .doneEos →
    t.cursor = s.cursor + s.width.bits ∧ t.ipos = (t.cursor + 7) / 8 ∧
    (t.ipos = s.ipos + 1 ∨ t.ipos = s.ipos + 2) ∧ t.input = s.input ∧ t.hasTrace = s.hasTrace

/-- From every state whose STATUS is not RUN, step answers the fault stopped (R79 says that no step is defined; that
the model says so by a fault is its choice of form, log 6), and the driver's loop, however long, leaves the
state as it is. (42_driver.md R79, 92_eei_decisions.md D9, 93_implementation_defined.md U10,
notes/assumptions/6.md) -/
def Obligations.TerminalStatesAreAbsorbing : Prop :=
  ∀ s : State, s.status ≠ .run →
    step s = .fault .stopped ∧ ∀ fuel, runSteps fuel s = s

/-- From every running state that meets the invariant, step answers a next state: it never faults and never refuses.
(30_encoding.md R44, 60_exceptions.md R84, 93_implementation_defined.md U10) -/
def Obligations.RunningStepAlwaysGoes : Prop :=
  ∀ s : State, s.Inv → s.status = .run → Goes (step s)

/-- From every state that meets the invariant, when step answers a next state, its OUT is the old OUT followed by a
chunk of at most 3839 bytes, which is empty exactly when the step read no code, a control code or an illegal
one. (10_state.md R21, 20_memory.md R31, 41_engine.md R71, 70_reset_and_hazards.md R104) -/
def Obligations.OutputOnlyGrows : Prop :=
  ∀ s t : State, s.Inv → step s = .next t →
    ∃ x, t.out = s.out ++ x ∧ x.length ≤ 3839 ∧
      (x = [] ↔ t.status ≠ .run ∨ (codeLeft s ∧ nextCode s = 256))

/-- From every state that meets the invariant, when step answers a next state, the table is the old one, or the old
one with one entry of length at least 2 added, which leaves every index but the old TLEN reading as before and
happens only with TLEN below 4096, or empty, and that only on the code 256. (10_state.md R18, 10_state.md R19,
20_memory.md R34) -/
def Obligations.EntriesImmutableWithinACycle : Prop :=
  ∀ s t : State, s.Inv → step s = .next t →
    t.tab = s.tab ∨
    (s.tlen < 4096 ∧ t.tlen = s.tlen + 1 ∧ (∀ i, i ≠ s.tlen → tabRead i t = tabRead i s) ∧
      ∃ x, tabRead s.tlen t = some x ∧ 2 ≤ x.length) ∨
    (t.tab = [] ∧ codeLeft s ∧ nextCode s = 256)

/-- The reset state, and the state in which a decode of any bytes starts from any state, meet the machine's
invariant and the link invariant of the table. (10_state.md R24, 70_reset_and_hazards.md R95) -/
def Obligations.InvariantsAtReset : Prop :=
  State.reset.Inv ∧ State.reset.Linked ∧
  ∀ (bytes : ByteString) (s : State), (startDecode bytes s).Inv ∧ (startDecode bytes s).Linked

/-- From every state that meets the invariant, the next state of a step meets it: the cursor in its range and BUF
the last byte pulled; at most 4096 table slots, entry i of length 2 to i - 256, PREV of length at most TLEN -
257; WIDTH = width_of(TLEN); PREV empty only with a cleared table; CAUSE NONE and ECODE 0 except with
ERR_CORRUPT. (10_state.md R13, 10_state.md R14, 10_state.md R15, 10_state.md R18, 10_state.md R19, 10_state.md
R20, 10_state.md R23, 41_engine.md R71) -/
def Obligations.StepKeepsInvariant : Prop :=
  ∀ s t : State, s.Inv → step s = .next t → t.Inv

/-- From every state that meets the invariant and the link invariant (each appended entry less its last byte is the
string of a code below its own index, and PREV is the string of a code of the table), the next state of a step
meets the link invariant. (41_engine.md R72) -/
def Obligations.StepKeepsTableLinked : Prop :=
  ∀ s t : State, s.Inv → s.Linked → step s = .next t → t.Linked

/-- In every state whose engine is as between steps, TLEN is at least 258, at most 2^WIDTH, and at most 510, 1022,
2046, 4096 for widths 9, 10, 11, 12. (10_state.md R14, 10_state.md R19) -/
def Obligations.WidthAddressesTheTable : Prop :=
  ∀ s : State, s.EngineInv →
    258 ≤ s.tlen ∧ s.tlen ≤ 2 ^ s.width.bits ∧
    s.tlen ≤ (match s.width with | .w9 => 510 | .w10 => 1022 | .w11 => 2046 | .w12 => 4096)

/-- After reset IPOS = 0, BUF = 0, BPOS = 8, WIDTH = 9, TLEN = 258, no dynamic entry exists, PREV and OUT are empty,
STATUS = RUN, CAUSE = NONE, ECODE = 0. (R24) -/
def Obligations.ResetState : Prop :=
  State.reset.ipos = 0 ∧ State.reset.buf = 0 ∧ State.reset.bpos = 8 ∧ State.reset.width.bits = 9 ∧
  State.reset.tlen = 258 ∧ (∀ i, 256 ≤ i → tabRead i State.reset = none) ∧ State.reset.prev = [] ∧
  State.reset.out = [] ∧ State.reset.status = .run ∧ State.reset.cause = .noCause ∧ State.reset.ecode = 0

/-- For any bytes and any state, resetting for a decode of those bytes gives IPOS = 0, BUF = 0, BPOS = 8, WIDTH = 9,
TLEN = 258, no dynamic entries, empty PREV and OUT, STATUS = RUN, CAUSE = NONE, ECODE = 0; from two states of
one build it gives the same state, the observer's records among it, whose emptying at reset is the model's
choice (log 3), as is reset in the form of a function of the host (log 12); and the first code is the 9 stream
bits from bit 7 of IN[0] on. (70_reset_and_hazards.md R95, 10_state.md R24, 42_driver.md R82,
notes/assumptions/3.md, notes/assumptions/12.md) -/
def Obligations.ResetFromAnyState : Prop :=
  ∀ (bytes : ByteString) (s : State),
    (let u := startDecode bytes s
     u.input = bytes ∧ u.ipos = 0 ∧ u.buf = 0 ∧ u.bpos = 8 ∧ u.width = .w9 ∧ u.tlen = 258 ∧ u.tab = [] ∧
      u.prev = [] ∧ u.out = [] ∧ u.status = .run ∧ u.cause = .noCause ∧ u.ecode = 0 ∧
      u.cursor = 0 ∧ nextCode u = streamField bytes 0 9) ∧
    ∀ t : State, t.hasTrace = s.hasTrace → startDecode bytes t = startDecode bytes s

/-- CLR in any format and any state completes, and the state it leaves has the table, TLEN, width and PREV of the
reset state. (70_reset_and_hazards.md R96) -/
def Obligations.ResetEngineIsClearedEngine : Prop :=
  ∀ (i : Instr) (s : State), i.cls = .clr →
    ∃ t, exec i s = .next t ∧ t.tab = State.reset.tab ∧ t.tlen = State.reset.tlen ∧
      t.width = State.reset.width ∧ t.prev = State.reset.prev

/-- STATUS is 0 RUN, 1 DONE_END, 2 DONE_EOS, 3 ERR_CORRUPT and CAUSE 0 NONE, 1 BAD_REF, 2 FIRST_NOT_LITERAL, 3
TABLE_FULL; success is DONE_END or DONE_EOS; and in a state whose engine is as between steps the 4-bit and
13-bit signals are WIDTH and TLEN exactly. (60_exceptions.md R87, 10_state.md R22, 10_state.md R23,
92_eei_decisions.md D10) -/
def Obligations.StatusSurfaceIsFaithful : Prop :=
  (Status.run.bits = 0 ∧ Status.doneEnd.bits = 1 ∧ Status.doneEos.bits = 2 ∧ Status.errCorrupt.bits = 3) ∧
  (Cause.noCause.bits = 0 ∧ Cause.badRef.bits = 1 ∧ Cause.firstNotLiteral.bits = 2 ∧ Cause.tableFull.bits = 3) ∧
  (∀ v : Status, v.success = true ↔ v = .doneEnd ∨ v = .doneEos) ∧
  ∀ s : State, s.EngineInv →
    (statusPorts s).width.toNat = s.width.bits ∧ (statusPorts s).tlen.toNat = s.tlen ∧
    (statusPorts s).ecode = s.ecode ∧ (statusPorts s).status = s.status.bits ∧
    (statusPorts s).cause = s.cause.bits

/-- For every register map, the build's own among them, and every state whose engine is as between steps: a signal is
on the bus exactly where the map places it and nowhere when it places it nowhere, and what stands there is the code
of STATUS or CAUSE, ECODE, WIDTH or TLEN, the same under every map. (The form of a place on a bus is the model's,
log 20.) (00_scope.md R9, 10_state.md R23, 92_eei_decisions.md D14, notes/assumptions/20.md) -/
def Obligations.RegisterMapShowsStatus : Prop :=
  ∀ (regMap : RegMap) (s : State), s.EngineInv →
    (∀ sig, signalOnBus regMap sig s = none ↔ regMap sig = none) ∧
    (∀ sig, hostBusRead sig s = signalOnBus Config.regMap sig s) ∧
    ∀ sig place value, signalOnBus regMap sig s = some (place, value) →
      regMap sig = some place ∧ value.toNat = elementValue s sig

/-- Two states that differ only in the build's HAS_TRACE and in the records are led by a step, and by any number of
steps, to the same outcome but for those. (42_driver.md R80, 60_exceptions.md R94) -/
def Obligations.ObserverOnlyWatches : Prop :=
  ∀ s t : State, eraseObserver s = eraseObserver t →
    mapNext eraseObserver (step s) = mapNext eraseObserver (step t) ∧
    ∀ fuel, eraseObserver (runSteps fuel s) = eraseObserver (runSteps fuel t)

/-- From every state that meets the invariant, when step answers a next state: in a build with an observer, a step
that ends in RUN or DONE_END adds the one record of the code read, the width it was read at, the chunk emitted
and the table length after the step, and any other step adds none; without an observer no record is ever added.
(42_driver.md R80, 92_eei_decisions.md D12) -/
def Obligations.ObserverRecordsCompletedSteps : Prop :=
  ∀ s t : State, s.Inv → step s = .next t →
    (s.hasTrace = true → t.status = .run ∨ t.status = .doneEnd →
      ∃ x, t.out = s.out ++ x ∧ t.trace = s.trace ++ [⟨nextCode s, s.width, x, t.tlen⟩]) ∧
    (s.hasTrace = false ∨ t.status = .doneEos ∨ t.status = .errCorrupt → t.trace = s.trace)

/-- From every state whose reader registers are as between steps: after a word is placed, in the format the model
lays it out in (log 10), the decoder runs, its width is that format's, its reader registers are as between
steps, and read_bits of that width answers the word. (20_memory.md R28, 42_driver.md R73,
notes/assumptions/10.md) -/
def Obligations.FetchWordIsReadNext : Prop :=
  ∀ (s : State) (nbits w : Nat), s.ReaderInv →
    w < 2 ^ (tableFormat s.width nbits w).bits →
    (s.withFetchWord nbits w).status = .run ∧
    (s.withFetchWord nbits w).width = tableFormat s.width nbits w ∧
    (s.withFetchWord nbits w).ReaderInv ∧
    ∃ t, readBits (tableFormat s.width nbits w).bits (s.withFetchWord nbits w) = .value w t

/-- For every input, after at most floor(8N/9) + 1 steps from reset STATUS is not RUN, and more steps change
nothing, whatever state of the same build the reset was applied in (a bound that R78 derives; that the reset,
the model's host function of log 12, also empties the observer's records is the model's choice, log 3); and from
every state that meets the invariant, a step that leaves STATUS = RUN consumes at least 9 bits. (42_driver.md
R78, 42_driver.md R73, 30_encoding.md R41, notes/assumptions/3.md, notes/assumptions/12.md) -/
def Obligations.EveryDecodeTerminates : Prop :=
  (∀ bytes : ByteString,
    (decodeRun bytes).status ≠ .run ∧
    ∀ (fuel : Nat) (s : State), 8 * bytes.length / 9 + 1 ≤ fuel → s.hasTrace = State.reset.hasTrace →
      runSteps fuel (startDecode bytes s) = decodeRun bytes) ∧
  ∀ s t : State, s.Inv → step s = .next t → t.status = .run → s.cursor + 9 ≤ t.cursor

/-- For every input x that ends with DONE_END or ERR_CORRUPT and every y, decode(x ++ y) = decode(x): status, cause,
code and output. (42_driver.md R83, 42_driver.md R75, 42_driver.md R77) -/
def Obligations.DecodeIgnoresWhatFollowsTheEnd : Prop :=
  ∀ x y : ByteString, (decodeStream x).status = .doneEnd ∨ (decodeStream x).status = .errCorrupt →
    decodeStream (x ++ y) = decodeStream x

/-- For every input and every cut after k bytes, the decode of the cut input is that of the whole, or it ends with
DONE_EOS, no cause, and an output that is a prefix of the whole's. (42_driver.md R76, 42_driver.md R83,
95_test_vectors.md V3) -/
def Obligations.TruncationYieldsAPrefix : Prop :=
  ∀ (bytes : ByteString) (k : Nat),
    decodeStream (bytes.take k) = decodeStream bytes ∨
    ((decodeStream (bytes.take k)).status = .doneEos ∧
      (decodeStream (bytes.take k)).cause = .noCause ∧ (decodeStream (bytes.take k)).ecode = 0 ∧
      (decodeStream (bytes.take k)).out <+: (decodeStream bytes).out)

/-- For every list of codes that the decoder accepts one after another without a stream (the last may end the run),
stepping through pack of the list once per code leads to the same engine, output, status and records, with the
cursor at the end of the packed bits. (30_encoding.md R42, 30_encoding.md R46, 30_encoding.md R51) -/
def Obligations.PackedCodesAreReadBack : Prop :=
  ∀ (codes : List Nat) (t : State),
    feedCodes codes (startDecode (pack codes) State.reset) = some t →
    let u := runSteps codes.length (startDecode (pack codes) State.reset)
    u = { t with ipos := u.ipos, buf := u.buf, bpos := u.bpos } ∧
    u.cursor = (packedBits PackState.start codes).length

/-- For every byte string B, decoding what the spec's test-only encoder makes of B ends with DONE_END, no cause,
code 0, and the output B. (42_driver.md R83, 95_test_vectors.md section 5) -/
def Obligations.DecodeOfTestEncoderIsIdentity : Prop :=
  ∀ bytes : ByteString, decodeStream (encodeStream bytes) = ⟨.doneEnd, .noCause, 0, bytes⟩
end

