-- ==== Sys2Proof/Laws/Decode.lean ====
section
/-! SUPPORT. Small facts about bits and the decoder's parts. -/

namespace Sys2Proof

@[simp] theorem length_bitsOfNat (w n : Nat) : (bitsOfNat w n).length = w := by simp [bitsOfNat]

@[simp] theorem length_bitsOfByte (b : Byte) : (bitsOfByte b).length = 8 := by simp [bitsOfByte]

@[simp] theorem length_bitsOfBytes (bytes : ByteString) : (bitsOfBytes bytes).length = 8 * bytes.length := by
  induction bytes with
  | nil => rfl
  | cons b rest ih => simp [bitsOfBytes] at *; omega

@[simp] theorem length_bytesOfBits (n : Nat) (bits : List Bool) : (bytesOfBits n bits).length = n := by
  induction n generalizing bits with
  | zero => rfl
  | succ n ih => simp [bytesOfBits, ih]

@[simp] theorem length_packBits (bits : List Bool) : (packBits bits).length = (bits.length + 7) / 8 := by
  simp [packBits]

@[simp] theorem length_encodeBits (i : Instr) : (encodeBits i).length = i.format.bits := by simp [encodeBits]

/-- Appending a bit below the others. -/
theorem natOfBits_append_one (bits : List Bool) (b : Bool) :
    natOfBits (bits ++ [b]) = 2 * natOfBits bits + b.toNat := by
  simp [natOfBits]

/-- The bits of a number without its lowest one are the bits of its half. -/
theorem bitsOfNat_succ (w n : Nat) : bitsOfNat (w + 1) n = bitsOfNat w (n / 2) ++ [n.testBit 0] := by
  unfold bitsOfNat
  rw [List.range_succ, List.map_append]
  congr 1
  · apply List.map_congr_left
    intro j hj
    have hj : j < w := by simpa using hj
    rw [show w + 1 - 1 - j = (w - 1 - j) + 1 by omega, Nat.testBit_succ]
  · simp

/-- Writing a number's bits and reading them back gives its low bits. -/
theorem natOfBits_bitsOfNat (w n : Nat) : natOfBits (bitsOfNat w n) = n % 2 ^ w := by
  induction w generalizing n with
  | zero => simp [bitsOfNat, natOfBits, Nat.mod_one]
  | succ w ih =>
    rw [bitsOfNat_succ, natOfBits_append_one, ih, Nat.testBit_zero, Nat.pow_succ, Nat.mul_comm (2 ^ w),
      Nat.mod_mul]
    rcases Nat.mod_two_eq_zero_or_one n with h | h <;> (simp [h]; try omega)

/-- The classes split on the value: only `FIRST` and `LIT` are below 256 and only the control codes are 256 and
257. -/
theorem rowInstr_format {f : Format} {k : CodeClass} {c : Nat} {i : Instr} (h : rowInstr f k c = some i) :
    i.format = f ∧ i.cls = k := by
  cases f <;> cases k <;> simp only [rowInstr, Option.some.injEq, reduceCtorEq] at h <;> subst h <;> exact ⟨rfl, rfl⟩

/-- `width_of` on each range of R42. -/
theorem widthOf_eq_iff (f : Format) (n : Nat) (h : 258 ≤ n) (h' : n ≤ 4096) :
    widthOf n = f ↔ f.minTlen ≤ n ∧ n ≤ f.maxTlen := by
  cases f <;> simp only [widthOf, Format.minTlen, Format.maxTlen, Config.thresh10, Config.thresh11, Config.thresh12,
    Config.firstDyn, Config.maxTlen] <;> split_ifs <;> simp only [true_iff, false_iff] <;> omega

end Sys2Proof
end

