-- ==== Sys2Proof/Laws/State.lean ====
section
/-! SUPPORT. One lemma per field per update of the state, so that no later proof unfolds a record update, and the
same for the derived views TLEN and the decoder's context. -/

namespace Sys2Proof.Machine

@[simp] theorem takeByte_input (b : Byte) (s : State) : (takeByte b s).input = s.input := rfl
@[simp] theorem takeByte_ipos (b : Byte) (s : State) : (takeByte b s).ipos = s.ipos + 1 := rfl
@[simp] theorem takeByte_buf (b : Byte) (s : State) : (takeByte b s).buf = b := rfl
@[simp] theorem takeByte_bpos (b : Byte) (s : State) : (takeByte b s).bpos = 0 := rfl
@[simp] theorem takeByte_width (b : Byte) (s : State) : (takeByte b s).width = s.width := rfl
@[simp] theorem takeByte_tab (b : Byte) (s : State) : (takeByte b s).tab = s.tab := rfl
@[simp] theorem takeByte_prev (b : Byte) (s : State) : (takeByte b s).prev = s.prev := rfl
@[simp] theorem takeByte_out (b : Byte) (s : State) : (takeByte b s).out = s.out := rfl
@[simp] theorem takeByte_status (b : Byte) (s : State) : (takeByte b s).status = s.status := rfl
@[simp] theorem takeByte_cause (b : Byte) (s : State) : (takeByte b s).cause = s.cause := rfl
@[simp] theorem takeByte_ecode (b : Byte) (s : State) : (takeByte b s).ecode = s.ecode := rfl
@[simp] theorem takeByte_hasTrace (b : Byte) (s : State) : (takeByte b s).hasTrace = s.hasTrace := rfl
@[simp] theorem takeByte_trace (b : Byte) (s : State) : (takeByte b s).trace = s.trace := rfl
@[simp] theorem takeByte_tlen (b : Byte) (s : State) : (takeByte b s).tlen = s.tlen := rfl

@[simp] theorem setBpos_input (v : Nat) (s : State) : (setBpos v s).input = s.input := rfl
@[simp] theorem setBpos_ipos (v : Nat) (s : State) : (setBpos v s).ipos = s.ipos := rfl
@[simp] theorem setBpos_buf (v : Nat) (s : State) : (setBpos v s).buf = s.buf := rfl
@[simp] theorem setBpos_bpos (v : Nat) (s : State) : (setBpos v s).bpos = v := rfl
@[simp] theorem setBpos_width (v : Nat) (s : State) : (setBpos v s).width = s.width := rfl
@[simp] theorem setBpos_tab (v : Nat) (s : State) : (setBpos v s).tab = s.tab := rfl
@[simp] theorem setBpos_prev (v : Nat) (s : State) : (setBpos v s).prev = s.prev := rfl
@[simp] theorem setBpos_out (v : Nat) (s : State) : (setBpos v s).out = s.out := rfl
@[simp] theorem setBpos_status (v : Nat) (s : State) : (setBpos v s).status = s.status := rfl
@[simp] theorem setBpos_cause (v : Nat) (s : State) : (setBpos v s).cause = s.cause := rfl
@[simp] theorem setBpos_ecode (v : Nat) (s : State) : (setBpos v s).ecode = s.ecode := rfl
@[simp] theorem setBpos_hasTrace (v : Nat) (s : State) : (setBpos v s).hasTrace = s.hasTrace := rfl
@[simp] theorem setBpos_trace (v : Nat) (s : State) : (setBpos v s).trace = s.trace := rfl
@[simp] theorem setBpos_tlen (v : Nat) (s : State) : (setBpos v s).tlen = s.tlen := rfl

@[simp] theorem tabAppend_input (x : ByteString) (s : State) : (tabAppend x s).input = s.input := rfl
@[simp] theorem tabAppend_ipos (x : ByteString) (s : State) : (tabAppend x s).ipos = s.ipos := rfl
@[simp] theorem tabAppend_buf (x : ByteString) (s : State) : (tabAppend x s).buf = s.buf := rfl
@[simp] theorem tabAppend_bpos (x : ByteString) (s : State) : (tabAppend x s).bpos = s.bpos := rfl
@[simp] theorem tabAppend_width (x : ByteString) (s : State) : (tabAppend x s).width = s.width := rfl
@[simp] theorem tabAppend_tab (x : ByteString) (s : State) : (tabAppend x s).tab = s.tab ++ [x] := rfl
@[simp] theorem tabAppend_prev (x : ByteString) (s : State) : (tabAppend x s).prev = s.prev := rfl
@[simp] theorem tabAppend_out (x : ByteString) (s : State) : (tabAppend x s).out = s.out := rfl
@[simp] theorem tabAppend_status (x : ByteString) (s : State) : (tabAppend x s).status = s.status := rfl
@[simp] theorem tabAppend_cause (x : ByteString) (s : State) : (tabAppend x s).cause = s.cause := rfl
@[simp] theorem tabAppend_ecode (x : ByteString) (s : State) : (tabAppend x s).ecode = s.ecode := rfl
@[simp] theorem tabAppend_hasTrace (x : ByteString) (s : State) : (tabAppend x s).hasTrace = s.hasTrace := rfl
@[simp] theorem tabAppend_trace (x : ByteString) (s : State) : (tabAppend x s).trace = s.trace := rfl
@[simp] theorem tabAppend_tlen (x : ByteString) (s : State) : (tabAppend x s).tlen = s.tlen + 1 := by simp [State.tlen, Nat.add_assoc]

@[simp] theorem updateWidth_input (s : State) : (updateWidth s).input = s.input := rfl
@[simp] theorem updateWidth_ipos (s : State) : (updateWidth s).ipos = s.ipos := rfl
@[simp] theorem updateWidth_buf (s : State) : (updateWidth s).buf = s.buf := rfl
@[simp] theorem updateWidth_bpos (s : State) : (updateWidth s).bpos = s.bpos := rfl
@[simp] theorem updateWidth_width (s : State) : (updateWidth s).width = widthOf s.tlen := rfl
@[simp] theorem updateWidth_tab (s : State) : (updateWidth s).tab = s.tab := rfl
@[simp] theorem updateWidth_prev (s : State) : (updateWidth s).prev = s.prev := rfl
@[simp] theorem updateWidth_out (s : State) : (updateWidth s).out = s.out := rfl
@[simp] theorem updateWidth_status (s : State) : (updateWidth s).status = s.status := rfl
@[simp] theorem updateWidth_cause (s : State) : (updateWidth s).cause = s.cause := rfl
@[simp] theorem updateWidth_ecode (s : State) : (updateWidth s).ecode = s.ecode := rfl
@[simp] theorem updateWidth_hasTrace (s : State) : (updateWidth s).hasTrace = s.hasTrace := rfl
@[simp] theorem updateWidth_trace (s : State) : (updateWidth s).trace = s.trace := rfl
@[simp] theorem updateWidth_tlen (s : State) : (updateWidth s).tlen = s.tlen := rfl

@[simp] theorem setPrev_input (x : ByteString) (s : State) : (setPrev x s).input = s.input := rfl
@[simp] theorem setPrev_ipos (x : ByteString) (s : State) : (setPrev x s).ipos = s.ipos := rfl
@[simp] theorem setPrev_buf (x : ByteString) (s : State) : (setPrev x s).buf = s.buf := rfl
@[simp] theorem setPrev_bpos (x : ByteString) (s : State) : (setPrev x s).bpos = s.bpos := rfl
@[simp] theorem setPrev_width (x : ByteString) (s : State) : (setPrev x s).width = s.width := rfl
@[simp] theorem setPrev_tab (x : ByteString) (s : State) : (setPrev x s).tab = s.tab := rfl
@[simp] theorem setPrev_prev (x : ByteString) (s : State) : (setPrev x s).prev = x := rfl
@[simp] theorem setPrev_out (x : ByteString) (s : State) : (setPrev x s).out = s.out := rfl
@[simp] theorem setPrev_status (x : ByteString) (s : State) : (setPrev x s).status = s.status := rfl
@[simp] theorem setPrev_cause (x : ByteString) (s : State) : (setPrev x s).cause = s.cause := rfl
@[simp] theorem setPrev_ecode (x : ByteString) (s : State) : (setPrev x s).ecode = s.ecode := rfl
@[simp] theorem setPrev_hasTrace (x : ByteString) (s : State) : (setPrev x s).hasTrace = s.hasTrace := rfl
@[simp] theorem setPrev_trace (x : ByteString) (s : State) : (setPrev x s).trace = s.trace := rfl
@[simp] theorem setPrev_tlen (x : ByteString) (s : State) : (setPrev x s).tlen = s.tlen := rfl

@[simp] theorem clearEngine_input (s : State) : (clearEngine s).input = s.input := rfl
@[simp] theorem clearEngine_ipos (s : State) : (clearEngine s).ipos = s.ipos := rfl
@[simp] theorem clearEngine_buf (s : State) : (clearEngine s).buf = s.buf := rfl
@[simp] theorem clearEngine_bpos (s : State) : (clearEngine s).bpos = s.bpos := rfl
@[simp] theorem clearEngine_width (s : State) : (clearEngine s).width = .w9 := rfl
@[simp] theorem clearEngine_tab (s : State) : (clearEngine s).tab = [] := rfl
@[simp] theorem clearEngine_prev (s : State) : (clearEngine s).prev = [] := rfl
@[simp] theorem clearEngine_out (s : State) : (clearEngine s).out = s.out := rfl
@[simp] theorem clearEngine_status (s : State) : (clearEngine s).status = s.status := rfl
@[simp] theorem clearEngine_cause (s : State) : (clearEngine s).cause = s.cause := rfl
@[simp] theorem clearEngine_ecode (s : State) : (clearEngine s).ecode = s.ecode := rfl
@[simp] theorem clearEngine_hasTrace (s : State) : (clearEngine s).hasTrace = s.hasTrace := rfl
@[simp] theorem clearEngine_trace (s : State) : (clearEngine s).trace = s.trace := rfl
@[simp] theorem clearEngine_tlen (s : State) : (clearEngine s).tlen = 258 := rfl

@[simp] theorem emit_input (x : ByteString) (s : State) : (emit x s).input = s.input := rfl
@[simp] theorem emit_ipos (x : ByteString) (s : State) : (emit x s).ipos = s.ipos := rfl
@[simp] theorem emit_buf (x : ByteString) (s : State) : (emit x s).buf = s.buf := rfl
@[simp] theorem emit_bpos (x : ByteString) (s : State) : (emit x s).bpos = s.bpos := rfl
@[simp] theorem emit_width (x : ByteString) (s : State) : (emit x s).width = s.width := rfl
@[simp] theorem emit_tab (x : ByteString) (s : State) : (emit x s).tab = s.tab := rfl
@[simp] theorem emit_prev (x : ByteString) (s : State) : (emit x s).prev = s.prev := rfl
@[simp] theorem emit_out (x : ByteString) (s : State) : (emit x s).out = s.out ++ x := rfl
@[simp] theorem emit_status (x : ByteString) (s : State) : (emit x s).status = s.status := rfl
@[simp] theorem emit_cause (x : ByteString) (s : State) : (emit x s).cause = s.cause := rfl
@[simp] theorem emit_ecode (x : ByteString) (s : State) : (emit x s).ecode = s.ecode := rfl
@[simp] theorem emit_hasTrace (x : ByteString) (s : State) : (emit x s).hasTrace = s.hasTrace := rfl
@[simp] theorem emit_trace (x : ByteString) (s : State) : (emit x s).trace = s.trace := rfl
@[simp] theorem emit_tlen (x : ByteString) (s : State) : (emit x s).tlen = s.tlen := rfl

@[simp] theorem observe_input (r : TraceRecord) (s : State) : (observe r s).input = s.input := rfl
@[simp] theorem observe_ipos (r : TraceRecord) (s : State) : (observe r s).ipos = s.ipos := rfl
@[simp] theorem observe_buf (r : TraceRecord) (s : State) : (observe r s).buf = s.buf := rfl
@[simp] theorem observe_bpos (r : TraceRecord) (s : State) : (observe r s).bpos = s.bpos := rfl
@[simp] theorem observe_width (r : TraceRecord) (s : State) : (observe r s).width = s.width := rfl
@[simp] theorem observe_tab (r : TraceRecord) (s : State) : (observe r s).tab = s.tab := rfl
@[simp] theorem observe_prev (r : TraceRecord) (s : State) : (observe r s).prev = s.prev := rfl
@[simp] theorem observe_out (r : TraceRecord) (s : State) : (observe r s).out = s.out := rfl
@[simp] theorem observe_status (r : TraceRecord) (s : State) : (observe r s).status = s.status := rfl
@[simp] theorem observe_cause (r : TraceRecord) (s : State) : (observe r s).cause = s.cause := rfl
@[simp] theorem observe_ecode (r : TraceRecord) (s : State) : (observe r s).ecode = s.ecode := rfl
@[simp] theorem observe_hasTrace (r : TraceRecord) (s : State) : (observe r s).hasTrace = s.hasTrace := rfl
@[simp] theorem observe_trace (r : TraceRecord) (s : State) : (observe r s).trace = if s.hasTrace then s.trace ++ [r] else s.trace := rfl
@[simp] theorem observe_tlen (r : TraceRecord) (s : State) : (observe r s).tlen = s.tlen := rfl

@[simp] theorem setStatus_input (v : Status) (s : State) : (setStatus v s).input = s.input := rfl
@[simp] theorem setStatus_ipos (v : Status) (s : State) : (setStatus v s).ipos = s.ipos := rfl
@[simp] theorem setStatus_buf (v : Status) (s : State) : (setStatus v s).buf = s.buf := rfl
@[simp] theorem setStatus_bpos (v : Status) (s : State) : (setStatus v s).bpos = s.bpos := rfl
@[simp] theorem setStatus_width (v : Status) (s : State) : (setStatus v s).width = s.width := rfl
@[simp] theorem setStatus_tab (v : Status) (s : State) : (setStatus v s).tab = s.tab := rfl
@[simp] theorem setStatus_prev (v : Status) (s : State) : (setStatus v s).prev = s.prev := rfl
@[simp] theorem setStatus_out (v : Status) (s : State) : (setStatus v s).out = s.out := rfl
@[simp] theorem setStatus_status (v : Status) (s : State) : (setStatus v s).status = v := rfl
@[simp] theorem setStatus_cause (v : Status) (s : State) : (setStatus v s).cause = s.cause := rfl
@[simp] theorem setStatus_ecode (v : Status) (s : State) : (setStatus v s).ecode = s.ecode := rfl
@[simp] theorem setStatus_hasTrace (v : Status) (s : State) : (setStatus v s).hasTrace = s.hasTrace := rfl
@[simp] theorem setStatus_trace (v : Status) (s : State) : (setStatus v s).trace = s.trace := rfl
@[simp] theorem setStatus_tlen (v : Status) (s : State) : (setStatus v s).tlen = s.tlen := rfl

@[simp] theorem raiseCorrupt_input (k : Cause) (c : Nat) (s : State) : (raiseCorrupt k c s).input = s.input := rfl
@[simp] theorem raiseCorrupt_ipos (k : Cause) (c : Nat) (s : State) : (raiseCorrupt k c s).ipos = s.ipos := rfl
@[simp] theorem raiseCorrupt_buf (k : Cause) (c : Nat) (s : State) : (raiseCorrupt k c s).buf = s.buf := rfl
@[simp] theorem raiseCorrupt_bpos (k : Cause) (c : Nat) (s : State) : (raiseCorrupt k c s).bpos = s.bpos := rfl
@[simp] theorem raiseCorrupt_width (k : Cause) (c : Nat) (s : State) : (raiseCorrupt k c s).width = s.width := rfl
@[simp] theorem raiseCorrupt_tab (k : Cause) (c : Nat) (s : State) : (raiseCorrupt k c s).tab = s.tab := rfl
@[simp] theorem raiseCorrupt_prev (k : Cause) (c : Nat) (s : State) : (raiseCorrupt k c s).prev = s.prev := rfl
@[simp] theorem raiseCorrupt_out (k : Cause) (c : Nat) (s : State) : (raiseCorrupt k c s).out = s.out := rfl
@[simp] theorem raiseCorrupt_status (k : Cause) (c : Nat) (s : State) : (raiseCorrupt k c s).status = .errCorrupt := rfl
@[simp] theorem raiseCorrupt_cause (k : Cause) (c : Nat) (s : State) : (raiseCorrupt k c s).cause = k := rfl
@[simp] theorem raiseCorrupt_ecode (k : Cause) (c : Nat) (s : State) : (raiseCorrupt k c s).ecode = BitVec.ofNat 12 c := rfl
@[simp] theorem raiseCorrupt_hasTrace (k : Cause) (c : Nat) (s : State) : (raiseCorrupt k c s).hasTrace = s.hasTrace := rfl
@[simp] theorem raiseCorrupt_trace (k : Cause) (c : Nat) (s : State) : (raiseCorrupt k c s).trace = s.trace := rfl
@[simp] theorem raiseCorrupt_tlen (k : Cause) (c : Nat) (s : State) : (raiseCorrupt k c s).tlen = s.tlen := rfl

@[simp] theorem raiseEndOfStream_input (s : State) : (raiseEndOfStream s).input = s.input := rfl
@[simp] theorem raiseEndOfStream_ipos (s : State) : (raiseEndOfStream s).ipos = s.ipos := rfl
@[simp] theorem raiseEndOfStream_buf (s : State) : (raiseEndOfStream s).buf = s.buf := rfl
@[simp] theorem raiseEndOfStream_bpos (s : State) : (raiseEndOfStream s).bpos = s.bpos := rfl
@[simp] theorem raiseEndOfStream_width (s : State) : (raiseEndOfStream s).width = s.width := rfl
@[simp] theorem raiseEndOfStream_tab (s : State) : (raiseEndOfStream s).tab = s.tab := rfl
@[simp] theorem raiseEndOfStream_prev (s : State) : (raiseEndOfStream s).prev = s.prev := rfl
@[simp] theorem raiseEndOfStream_out (s : State) : (raiseEndOfStream s).out = s.out := rfl
@[simp] theorem raiseEndOfStream_status (s : State) : (raiseEndOfStream s).status = .doneEos := rfl
@[simp] theorem raiseEndOfStream_cause (s : State) : (raiseEndOfStream s).cause = s.cause := rfl
@[simp] theorem raiseEndOfStream_ecode (s : State) : (raiseEndOfStream s).ecode = s.ecode := rfl
@[simp] theorem raiseEndOfStream_hasTrace (s : State) : (raiseEndOfStream s).hasTrace = s.hasTrace := rfl
@[simp] theorem raiseEndOfStream_trace (s : State) : (raiseEndOfStream s).trace = s.trace := rfl
@[simp] theorem raiseEndOfStream_tlen (s : State) : (raiseEndOfStream s).tlen = s.tlen := rfl

@[simp] theorem startDecode_input (bytes : ByteString) (s : State) : (startDecode bytes s).input = bytes := rfl
@[simp] theorem startDecode_ipos (bytes : ByteString) (s : State) : (startDecode bytes s).ipos = 0 := rfl
@[simp] theorem startDecode_buf (bytes : ByteString) (s : State) : (startDecode bytes s).buf = 0 := rfl
@[simp] theorem startDecode_bpos (bytes : ByteString) (s : State) : (startDecode bytes s).bpos = 8 := rfl
@[simp] theorem startDecode_width (bytes : ByteString) (s : State) : (startDecode bytes s).width = .w9 := rfl
@[simp] theorem startDecode_tab (bytes : ByteString) (s : State) : (startDecode bytes s).tab = [] := rfl
@[simp] theorem startDecode_prev (bytes : ByteString) (s : State) : (startDecode bytes s).prev = [] := rfl
@[simp] theorem startDecode_out (bytes : ByteString) (s : State) : (startDecode bytes s).out = [] := rfl
@[simp] theorem startDecode_status (bytes : ByteString) (s : State) : (startDecode bytes s).status = .run := rfl
@[simp] theorem startDecode_cause (bytes : ByteString) (s : State) : (startDecode bytes s).cause = .noCause := rfl
@[simp] theorem startDecode_ecode (bytes : ByteString) (s : State) : (startDecode bytes s).ecode = 0 := rfl
@[simp] theorem startDecode_hasTrace (bytes : ByteString) (s : State) : (startDecode bytes s).hasTrace = s.hasTrace := rfl
@[simp] theorem startDecode_trace (bytes : ByteString) (s : State) : (startDecode bytes s).trace = [] := rfl
@[simp] theorem startDecode_tlen (bytes : ByteString) (s : State) : (startDecode bytes s).tlen = 258 := rfl

@[simp] theorem completeCode_input (w : Format) (c : Nat) (x : ByteString) (s : State) : (completeCode w c x s).input = s.input := rfl
@[simp] theorem completeCode_ipos (w : Format) (c : Nat) (x : ByteString) (s : State) : (completeCode w c x s).ipos = s.ipos := rfl
@[simp] theorem completeCode_buf (w : Format) (c : Nat) (x : ByteString) (s : State) : (completeCode w c x s).buf = s.buf := rfl
@[simp] theorem completeCode_bpos (w : Format) (c : Nat) (x : ByteString) (s : State) : (completeCode w c x s).bpos = s.bpos := rfl
@[simp] theorem completeCode_width (w : Format) (c : Nat) (x : ByteString) (s : State) : (completeCode w c x s).width = s.width := rfl
@[simp] theorem completeCode_tab (w : Format) (c : Nat) (x : ByteString) (s : State) : (completeCode w c x s).tab = s.tab := rfl
@[simp] theorem completeCode_prev (w : Format) (c : Nat) (x : ByteString) (s : State) : (completeCode w c x s).prev = s.prev := rfl
@[simp] theorem completeCode_out (w : Format) (c : Nat) (x : ByteString) (s : State) : (completeCode w c x s).out = s.out ++ x := rfl
@[simp] theorem completeCode_status (w : Format) (c : Nat) (x : ByteString) (s : State) : (completeCode w c x s).status = s.status := rfl
@[simp] theorem completeCode_cause (w : Format) (c : Nat) (x : ByteString) (s : State) : (completeCode w c x s).cause = s.cause := rfl
@[simp] theorem completeCode_ecode (w : Format) (c : Nat) (x : ByteString) (s : State) : (completeCode w c x s).ecode = s.ecode := rfl
@[simp] theorem completeCode_hasTrace (w : Format) (c : Nat) (x : ByteString) (s : State) : (completeCode w c x s).hasTrace = s.hasTrace := rfl
@[simp] theorem completeCode_trace (w : Format) (c : Nat) (x : ByteString) (s : State) : (completeCode w c x s).trace = if s.hasTrace then s.trace ++ [⟨c, w, x, s.tlen⟩] else s.trace := rfl
@[simp] theorem completeCode_tlen (w : Format) (c : Nat) (x : ByteString) (s : State) : (completeCode w c x s).tlen = s.tlen := rfl

@[simp] theorem appendEntry_input (e x : ByteString) (s : State) : (appendEntry e x s).input = s.input := rfl
@[simp] theorem appendEntry_ipos (e x : ByteString) (s : State) : (appendEntry e x s).ipos = s.ipos := rfl
@[simp] theorem appendEntry_buf (e x : ByteString) (s : State) : (appendEntry e x s).buf = s.buf := rfl
@[simp] theorem appendEntry_bpos (e x : ByteString) (s : State) : (appendEntry e x s).bpos = s.bpos := rfl
@[simp] theorem appendEntry_width (e x : ByteString) (s : State) : (appendEntry e x s).width = widthOf (tabAppend e s).tlen := rfl
@[simp] theorem appendEntry_tab (e x : ByteString) (s : State) : (appendEntry e x s).tab = s.tab ++ [e] := rfl
@[simp] theorem appendEntry_prev (e x : ByteString) (s : State) : (appendEntry e x s).prev = x := rfl
@[simp] theorem appendEntry_out (e x : ByteString) (s : State) : (appendEntry e x s).out = s.out := rfl
@[simp] theorem appendEntry_status (e x : ByteString) (s : State) : (appendEntry e x s).status = s.status := rfl
@[simp] theorem appendEntry_cause (e x : ByteString) (s : State) : (appendEntry e x s).cause = s.cause := rfl
@[simp] theorem appendEntry_ecode (e x : ByteString) (s : State) : (appendEntry e x s).ecode = s.ecode := rfl
@[simp] theorem appendEntry_hasTrace (e x : ByteString) (s : State) : (appendEntry e x s).hasTrace = s.hasTrace := rfl
@[simp] theorem appendEntry_trace (e x : ByteString) (s : State) : (appendEntry e x s).trace = s.trace := rfl
@[simp] theorem appendEntry_tlen (e x : ByteString) (s : State) : (appendEntry e x s).tlen = s.tlen + 1 := by simp [State.tlen, Nat.add_assoc]

/-! ## The signals of the status surface -/

@[simp] theorem signal_status_toNat (p : StatusPorts) : (p.signal .status).toNat = p.status.toNat := rfl
@[simp] theorem signal_cause_toNat (p : StatusPorts) : (p.signal .cause).toNat = p.cause.toNat := rfl
@[simp] theorem signal_ecode_toNat (p : StatusPorts) : (p.signal .ecode).toNat = p.ecode.toNat := rfl
@[simp] theorem signal_width_toNat (p : StatusPorts) : (p.signal .width).toNat = p.width.toNat := rfl
@[simp] theorem signal_tlen_toNat (p : StatusPorts) : (p.signal .tlen).toNat = p.tlen.toNat := rfl

@[simp] theorem signalOnBus_eq_none {m : RegMap} {sig : StatusSignal} {s : State} :
    signalOnBus m sig s = none ↔ m sig = none := by simp [signalOnBus]

@[simp] theorem signalOnBus_eq_some {m : RegMap} {sig : StatusSignal} {s : State} {place : BusPlace}
    {value : BitVec sig.bits} :
    signalOnBus m sig s = some (place, value) ↔ m sig = some place ∧ (statusPorts s).signal sig = value := by
  simp [signalOnBus]

end Sys2Proof.Machine
end

