-- ==== Sys2Proof/Laws/Reader.lean ====
section
/-! SUPPORT. What the bit reader can do, said once: `InPull`, one pass of the loop of R52, and which fields a whole
`read_bits` touches. -/

namespace Sys2Proof.Machine

/-- Two states that differ at most in the reader's registers. -/
def SameOutsideReader (s t : State) : Prop :=
  t = { s with ipos := t.ipos, buf := t.buf, bpos := t.bpos }

theorem SameOutsideReader.refl (s : State) : SameOutsideReader s s := rfl

theorem SameOutsideReader.trans {s t u : State} (h : SameOutsideReader s t) (h' : SameOutsideReader t u) :
    SameOutsideReader s u := by
  unfold SameOutsideReader at *
  rw [h']; rw [h]

theorem sameOutsideReader_takeByte (b : Byte) (s : State) : SameOutsideReader s (takeByte b s) := rfl

theorem sameOutsideReader_setBpos (v : Nat) (s : State) : SameOutsideReader s (setBpos v s) := rfl

theorem SameOutsideReader.ctx {s t : State} (h : SameOutsideReader s t) : t.ctx = s.ctx := by
  rw [h]; rfl

theorem SameOutsideReader.input {s t : State} (h : SameOutsideReader s t) : t.input = s.input := by
  rw [h]

theorem SameOutsideReader.status {s t : State} (h : SameOutsideReader s t) : t.status = s.status := by
  rw [h]

/-- `InPull` raises `EndOfStream` exactly when every byte has been pulled (R27). -/
theorem inPull_eq_none_iff (s : State) : inPull s = none ↔ s.input.length ≤ s.ipos := by
  unfold inPull unread
  split <;> rename_i h
  · simpa using h
  · have : (s.input.drop s.ipos).length ≠ 0 := by rw [h]; simp
    simp at this; simp; omega

/-- What a successful `InPull` does (R27, R54): the byte at `IPOS` goes to `BUF`. -/
theorem inPull_cases {s t : State} (h : inPull s = some t) :
    ∃ b, s.input[s.ipos]? = some b ∧ t = takeByte b s ∧ unread s = b :: unread t := by
  unfold inPull at h
  split at h
  · cases h
  · rename_i b rest hu
    obtain rfl : takeByte b s = t := by simpa using h
    have hget : s.input[s.ipos]? = some b := by
      have := congrArg (·[0]?) hu
      simpa [unread] using this
    have hrest : unread (takeByte b s) = rest := by
      have := congrArg (List.drop 1) hu
      simpa [unread, List.drop_drop, Nat.add_comm] using this
    exact ⟨b, hget, rfl, by rw [hu, hrest]⟩

/-- The finishing pass (R53). -/
theorem readLoop_finish {m : Nat} {s : State} (h : m ≤ 8 - s.bpos) (rest : ByteString) (v : Nat) :
    readLoop rest m v s =
      .value ((v <<< m) ||| ((s.buf.toNat >>> (8 - s.bpos - m)) &&& (2 ^ m - 1))) (setBpos (s.bpos + m) s) := by
  cases rest <;> simp [readLoop, h]

/-- The loop with nothing left to pull (R55). -/
theorem readLoop_exhausted {m : Nat} {s : State} (h : ¬ m ≤ 8 - s.bpos) (v : Nat) :
    readLoop [] m v s = .endOfStream (setBpos 8 s) := by
  simp [readLoop, h]

/-- The continuing pass (R54). -/
theorem readLoop_continue {m : Nat} {s : State} (h : ¬ m ≤ 8 - s.bpos) (b : Byte) (rest : ByteString) (v : Nat) :
    readLoop (b :: rest) m v s =
      readLoop rest (m - (8 - s.bpos)) ((v <<< (8 - s.bpos)) ||| (s.buf.toNat &&& (2 ^ (8 - s.bpos) - 1)))
        (takeByte b s) := by
  simp [readLoop, h]

/-- On the bytes a state has not yet pulled, a pass that needs more bits is one `InPull` (R52: "the only read of the
input space"). -/
theorem readLoop_unread {m : Nat} {s : State} (h : ¬ m ≤ 8 - s.bpos) (v : Nat) :
    readLoop (unread s) m v s =
      match inPull s with
      | none => .endOfStream (setBpos 8 s)
      | some t => readLoop (unread t) (m - (8 - s.bpos))
          ((v <<< (8 - s.bpos)) ||| (s.buf.toNat &&& (2 ^ (8 - s.bpos) - 1))) t := by
  cases hp : inPull s with
  | none =>
    have hlen := (inPull_eq_none_iff s).1 hp
    have : unread s = [] := by simpa [unread] using hlen
    rw [this, readLoop_exhausted h]
  | some t =>
    obtain ⟨b, -, rfl, hu⟩ := inPull_cases hp
    rw [hu, readLoop_continue h]

/-- Whatever the loop answers, it answers it with a state that differs only in the reader's registers (R56). -/
theorem readLoop_sameOutsideReader (rest : ByteString) (m v : Nat) (s : State) :
    (∀ x t, readLoop rest m v s = .value x t → SameOutsideReader s t) ∧
    (∀ t, readLoop rest m v s = .endOfStream t → SameOutsideReader s t) ∧
    readLoop rest m v s ≠ .notAForm := by
  induction rest generalizing m v s with
  | nil =>
    by_cases h : m ≤ 8 - s.bpos
    · rw [readLoop_finish h]
      refine ⟨?_, by simp, by simp⟩
      rintro x t ⟨⟩
      exact sameOutsideReader_setBpos _ _
    · rw [readLoop_exhausted h]
      refine ⟨by simp, ?_, by simp⟩
      rintro t ⟨⟩
      exact sameOutsideReader_setBpos _ _
  | cons b rest ih =>
    by_cases h : m ≤ 8 - s.bpos
    · rw [readLoop_finish h]
      refine ⟨?_, by simp, by simp⟩
      rintro x t ⟨⟩
      exact sameOutsideReader_setBpos _ _
    · rw [readLoop_continue h]
      obtain ⟨hv, he, hn⟩ := ih (m - (8 - s.bpos)) _ (takeByte b s)
      exact ⟨fun x t hx => (sameOutsideReader_takeByte b s).trans (hv x t hx),
        fun t hx => (sameOutsideReader_takeByte b s).trans (he t hx), hn⟩

/-- The driver's reads are forms of the operation: a width is one of 9, 10, 11, 12 (R58). -/
theorem readBits_width (f : Format) (s : State) : readBits f.bits s = readLoop (unread s) f.bits 0 s := by
  cases f <;> simp [readBits, Format.bits]

end Sys2Proof.Machine
end

