-- ==== Sys2Proof/Laws/Table.lean ====
section
/-! SUPPORT. The table operations (R33, R34) and the form of the table between steps: every operation on the three
spaces keeps `Memory.wf`. -/

namespace Sys2Proof.Machine

/-- A fixed entry is the one-byte string of its index (R16). -/
@[simp] theorem tabRead_literal (b : Byte) (s : State) : tabRead b.toNat s = some (literalEntry b) := by
  have := b.isLt
  simp [tabRead, show b.toNat < 256 by omega]

/-- An index from 258 up reads the list of appended entries (R18). -/
theorem tabRead_dynamic {i : Nat} (h : 258 ≤ i) (s : State) : tabRead i s = s.tab[i - 258]? := by
  simp [tabRead, show ¬ i < 256 by omega, show ¬ i < 258 by omega]

/-- Every index from 258 to below `TLEN` has an entry (R18). -/
theorem tabRead_isSome {i : Nat} {s : State} (h : 258 ≤ i) (hlt : i < s.tlen) : ∃ x, tabRead i s = some x := by
  rw [tabRead_dynamic h]
  have : i - 258 < s.tab.length := by simp [State.tlen] at hlt; omega
  exact ⟨_, List.getElem?_eq_getElem this⟩

/-- A read depends on the table alone. -/
theorem tabRead_congr {s t : State} (h : t.tab = s.tab) (i : Nat) : tabRead i t = tabRead i s := by
  simp [tabRead, h]

/-- `Memory.wf` spelled out: the length bound and each entry's (R19c). -/
theorem memory_wf_iff (s : State) :
    Memory.wf s = true ↔
      s.tlen ≤ 4096 ∧ ∀ k x, s.tab[k]? = some x → 2 ≤ x.length ∧ x.length ≤ k + 2 := by
  simp only [Memory.wf, Bool.and_eq_true, decide_eq_true_eq, List.all_eq_true, Prod.forall,
    List.mk_mem_zipIdx_iff_getElem?]
  exact ⟨fun ⟨h, h'⟩ => ⟨h, fun k x hx => h' x k hx⟩, fun ⟨h, h'⟩ => ⟨h, fun x k hx => h' k x hx⟩⟩

/-- The form depends on the table alone. -/
theorem memory_wf_congr {s t : State} (h : t.tab = s.tab) : Memory.wf t = Memory.wf s := by
  unfold Memory.wf State.tlen
  rw [h]

/-- `TabAppend` keeps the form when it is called as R34 and R71 say it is. -/
theorem memory_wf_tabAppend {s : State} {x : ByteString} (h : Memory.wf s = true) (hroom : s.tlen < 4096)
    (hx : 2 ≤ x.length) (hx' : x.length + 256 ≤ s.tlen) : Memory.wf (tabAppend x s) = true := by
  rw [memory_wf_iff] at *
  refine ⟨by simp; omega, fun k y hy => ?_⟩
  rcases Nat.lt_trichotomy k s.tab.length with hk | hk | hk
  · exact h.2 k y (by simpa [List.getElem?_append_left hk] using hy)
  · subst hk
    obtain rfl : x = y := by simpa using hy
    simp [State.tlen] at hx'
    exact ⟨hx, by omega⟩
  · have hnone : (tabAppend x s).tab[k]? = none := by
      rw [List.getElem?_eq_none_iff]; simp; omega
    rw [hnone] at hy
    cases hy

/-- The whole append of a code keeps the form. -/
theorem memory_wf_appendEntry {s : State} {e x : ByteString} (h : Memory.wf s = true) (hroom : s.tlen < 4096)
    (he : 2 ≤ e.length) (he' : e.length + 256 ≤ s.tlen) : Memory.wf (appendEntry e x s) = true := by
  exact (memory_wf_congr (s := tabAppend e s) rfl).trans (memory_wf_tabAppend h hroom he he')

/-- CLEAR leaves the form: an empty table (R61). -/
@[simp] theorem memory_wf_clearEngine (s : State) : Memory.wf (clearEngine s) = true := by
  simp [memory_wf_iff]

/-- The operations that do not touch the table keep its form. -/
theorem memory_wf_frame (s : State) (b : Byte) (v : Nat) (x : ByteString) (r : TraceRecord) (st : Status)
    (k : Cause) (h : Memory.wf s = true) :
    Memory.wf (takeByte b s) = true ∧ Memory.wf (setBpos v s) = true ∧ Memory.wf (updateWidth s) = true ∧
      Memory.wf (setPrev x s) = true ∧ Memory.wf (emit x s) = true ∧ Memory.wf (observe r s) = true ∧
      Memory.wf (setStatus st s) = true ∧ Memory.wf (raiseCorrupt k v s) = true ∧
      Memory.wf (raiseEndOfStream s) = true :=
  ⟨h, h, h, h, h, h, h, h, h⟩

/-- The memory of a decode about to start, and of the reset state, has the form. -/
theorem memory_wf_startDecode (bytes : ByteString) (s : State) : Memory.wf (startDecode bytes s) = true := by
  simp [memory_wf_iff]

theorem memory_wf_reset : Memory.wf State.reset = true := by decide

end Sys2Proof.Machine
end

