-- ==== Sys2Proof/Laws/Exec.lean ====
section
/-! SUPPORT. What an instruction and a step can do, said once: later proofs cite these cases instead of unfolding
the meanings. -/

namespace Sys2Proof.Machine

/-- A meaning guarded by its row's condition answers a next state exactly when the condition holds. -/
theorem whenSelected_eq_next {k : CodeClass} {c : Nat} {s t u : State} :
    whenSelected k c s t = .next u ↔ k.cond s.ctx c = true ∧ t = u := by
  unfold whenSelected
  split <;> simp_all

/-- The state an instruction of a class leaves when its row is selected, by class; `x` is the entry read, for
`LIT` and `REF`. -/
def classEffect (k : CodeClass) (c : Nat) (x : ByteString) (s : State) : State :=
  match k with
  | .clr => completeCode s.width Config.clearValue [] (clearEngine s)
  | .endOfData => setStatus .doneEnd (completeCode s.width Config.endValue [] s)
  | .first => completeCode s.width c (literalEntry (BitVec.ofNat 8 c)) (setPrev (literalEntry (BitVec.ofNat 8 c)) s)
  | .firstNotLiteral => raiseCorrupt .firstNotLiteral c s
  | .badRef => raiseCorrupt .badRef c s
  | .tableFull => raiseCorrupt .tableFull c s
  | .lit | .ref => indexCode c x s
  | .kwk => completeCode s.width c (kwkString s) (appendEntry (kwkString s) (kwkString s) s)

/-- If an instruction answers a next state, its row's condition held and the state is its class's effect, with the
entry its code names. -/
theorem exec_cases {i : Instr} {s t : State} (h : exec i s = .next t) :
    i.cls.cond s.ctx i.code = true ∧
      ∃ x, (i.cls = .lit ∨ i.cls = .ref → tabRead i.code s = some x) ∧ t = classEffect i.cls i.code x s := by
  cases i
  case clrW9 | clrW10 | clrW11 | clrW12 =>
    obtain rfl : classEffect .clr 256 [] s = t := by simpa [exec, classEffect, clearCode, execClrW9, execClrW10, execClrW11, execClrW12] using h
    exact ⟨by simp [Instr.cls, Instr.code, CodeClass.cond], [], by simp [Instr.cls], rfl⟩
  case endW9 | endW10 | endW11 | endW12 =>
    obtain rfl : classEffect .endOfData 257 [] s = t := by simpa [exec, classEffect, endCode, execEndW9, execEndW10, execEndW11, execEndW12] using h
    exact ⟨by simp [Instr.cls, Instr.code, CodeClass.cond], [], by simp [Instr.cls], rfl⟩
  case firstW9 b =>
    obtain ⟨hc, rfl⟩ := whenSelected_eq_next.1 (show whenSelected _ _ _ _ = _ from h)
    exact ⟨hc, [], by simp [Instr.cls], by simp [classEffect, Instr.cls, Instr.code]⟩
  case litW9 b | litW10 b | litW11 b | litW12 b =>
    obtain ⟨hc, rfl⟩ := whenSelected_eq_next.1 (show whenSelected _ _ _ _ = _ from h)
    exact ⟨hc, literalEntry b, by simp [Instr.code], by simp [classEffect, Instr.cls, Instr.code]⟩
  case refW9 c | refW10 c | refW11 c | refW12 c =>
    have h' : refCode c.toNat s = .next t := h
    unfold refCode at h'
    split at h'
    · rename_i x hx
      obtain ⟨hc, rfl⟩ := whenSelected_eq_next.1 h'
      exact ⟨hc, x, by simp [Instr.code, hx], by simp [classEffect, Instr.cls, Instr.code]⟩
    · cases h'
  all_goals
    obtain ⟨hc, rfl⟩ := whenSelected_eq_next.1 (show whenSelected _ _ _ _ = _ from h)
    exact ⟨hc, [], by simp [Instr.cls], rfl⟩

/-- If a step answers a next state, the run was going on, and either the input was exhausted or one code was read,
decoded and run. -/
theorem step_cases {s t : State} (h : step s = .next t) :
    s.status = .run ∧
      ((∃ u, readBits s.width.bits s = .endOfStream u ∧ SameOutsideReader s u ∧ t = raiseEndOfStream u) ∨
       (∃ c u i, readBits s.width.bits s = .value c u ∧ SameOutsideReader s u ∧
          decodeCode s.ctx c = .ok i ∧ exec i u = .next t)) := by
  unfold step at h
  split at h
  · rename_i hrun
    refine ⟨hrun, ?_⟩
    obtain ⟨hv, he, -⟩ := readLoop_sameOutsideReader (unread s) s.width.bits 0 s
    rw [← readBits_width] at hv he
    split at h
    · rename_i c u hread
      split at h
      · rename_i i hdec
        have hsame := hv c u hread
        rw [hsame.ctx] at hdec
        exact .inr ⟨c, u, i, hread, hsame, hdec, h⟩
      · cases h
    · rename_i u hread
      obtain rfl : raiseEndOfStream u = t := by simpa using h
      exact .inl ⟨u, hread, he u hread, rfl⟩
    · cases h
  all_goals cases h

/-- A step with a terminal status is the fault `stopped` (R79). -/
theorem step_of_not_run {s : State} (h : s.status ≠ .run) : step s = .fault .stopped := by
  unfold step
  split <;> simp_all

end Sys2Proof.Machine
end

