-- ==== Sys2Proof/Laws/PerInstr.lean ====
section
/-! SUPPORT. Facts about every instruction as syntax, one lemma per constructor. -/

namespace Sys2Proof.Laws

/-- The code value fits the format (R41): the word has exactly the format's bits. -/
def CodeFits.Statement (i : Instr) : Prop := i.code < 2 ^ i.format.bits

/-- The well-formed terms are exactly those that some consistent context selects (R44 with R42). -/
def Occurs.Statement (i : Instr) : Prop :=
  i.wf = true ↔ ∃ ctx : DecodeCtx, ctx.ok = true ∧ i.selected ctx = true

/-- A table length in a format's range makes a consistent context with a `PREV`. -/
theorem ctx_ok_of_range {f : Format} {n : Nat} (h : f.minTlen ≤ n) (h' : n ≤ f.maxTlen) :
    (⟨f, false, n⟩ : DecodeCtx).ok = true := by
  have hr : 258 ≤ n ∧ n ≤ 4096 := by
    cases f <;> simp only [Format.minTlen, Format.maxTlen, Config.thresh10, Config.thresh11, Config.thresh12,
      Config.firstDyn, Config.maxTlen] at h h' <;> omega
  have hw := (widthOf_eq_iff f n hr.1 hr.2).2 ⟨h, h'⟩
  simp [DecodeCtx.ok, hr, hw]

/-- The table length of a consistent context is in the range of its format. -/
theorem range_of_ctx_ok {ctx : DecodeCtx} (h : ctx.ok = true) :
    ctx.width.minTlen ≤ ctx.tlen ∧ ctx.tlen ≤ ctx.width.maxTlen := by
  simp [DecodeCtx.ok] at h
  obtain ⟨h1, h2, h3, -⟩ := h
  exact (widthOf_eq_iff _ _ h1 h2).1 h3.symm

/-- A well-formed term occurs, given what its row says of its operand. -/
theorem occurs_of_row (i : Instr)
    (hfirst : i.cls = .first ∨ i.cls = .firstNotLiteral → i.format = .w9)
    (hfull : i.cls = .tableFull → i.format = .w12)
    (hbyte : i.cls = .first ∨ i.cls = .lit → i.code ≤ 255)
    (hclr : i.cls = .clr → i.code = 256) (hend : i.cls = .endOfData → i.code = 257)
    (hfits : CodeFits.Statement i) : Occurs.Statement i := by
  have hlo : i.format.minTlen ≤ i.format.maxAppendTlen ∧ i.format.maxAppendTlen ≤ i.format.maxTlen ∧
      i.format.maxAppendTlen < 4096 ∧ 258 ≤ i.format.minTlen := by
    cases i.format <;> decide
  refine ⟨fun hwf => ?_, fun ⟨ctx, hok, hsel⟩ => ?_⟩
  · have at_length (n : Nat) (h : i.format.minTlen ≤ n) (h' : n ≤ i.format.maxTlen)
        (hc : i.cls.cond ⟨i.format, false, n⟩ i.code = true) :
        ∃ ctx : DecodeCtx, ctx.ok = true ∧ i.selected ctx = true :=
      ⟨⟨i.format, false, n⟩, ctx_ok_of_range h h', by simp [Instr.selected, hc]⟩
    rcases hk : i.cls with _ | _ | _ | _ | _ | _ | _ | _ | _ <;>
      simp only [Instr.wf, hk, decide_eq_true_eq, Config.firstDyn, Config.clearValue, Config.endValue] at hwf
    · exact at_length i.format.minTlen (by omega) (by omega) (by simp [hk, CodeClass.cond, hclr hk])
    · exact at_length i.format.minTlen (by omega) (by omega) (by simp [hk, CodeClass.cond, hend hk])
    · exact ⟨⟨.w9, true, 258⟩, by decide, by
        simp [Instr.selected, hk, CodeClass.cond, hfirst (.inl hk), hbyte (.inl hk)]⟩
    · exact ⟨⟨.w9, true, 258⟩, by decide, by
        simp [Instr.selected, hk, CodeClass.cond, hfirst (.inr hk), hwf]⟩
    · exact at_length i.format.minTlen (by omega) (by omega) (by simp [hk, CodeClass.cond, hwf])
    · have hf := hfull hk
      have : i.code < 2 ^ 12 := by simpa [hf, CodeFits.Statement, Format.bits] using hfits
      exact ⟨⟨.w12, false, 4096⟩, by decide, by
        simp [Instr.selected, hk, CodeClass.cond, hf, hwf]; omega⟩
    · exact at_length i.format.minTlen (by omega) (by omega) (by
        simp [hk, CodeClass.cond, hbyte (.inr hk)]; omega)
    · exact at_length i.format.maxAppendTlen (by omega) (by omega) (by
        simp [hk, CodeClass.cond, hwf]; omega)
    · exact at_length i.code (by omega) (by omega) (by simp [hk, CodeClass.cond]; omega)
  · obtain ⟨hr, hr'⟩ := range_of_ctx_ok hok
    have happ : ctx.tlen < 4096 → ctx.tlen ≤ ctx.width.maxAppendTlen := by
      intro h; simp [Format.maxAppendTlen]; omega
    simp only [Instr.selected, Bool.and_eq_true, decide_eq_true_eq] at hsel
    obtain ⟨hf, hc⟩ := hsel
    rcases hk : i.cls with _ | _ | _ | _ | _ | _ | _ | _ | _ <;>
      simp only [hk, CodeClass.cond, decide_eq_true_eq, Config.firstDyn, Config.clearValue, Config.endValue,
        Config.maxTlen] at hc <;>
      simp [Instr.wf, hk, hf] <;> omega

theorem CodeFits.clrW9 : CodeFits.Statement (.clrW9) := by simp [CodeFits.Statement, Instr.code, Instr.format, Format.bits]
theorem CodeFits.endW9 : CodeFits.Statement (.endW9) := by simp [CodeFits.Statement, Instr.code, Instr.format, Format.bits]
theorem CodeFits.firstW9 (b : Byte) : CodeFits.Statement (.firstW9 b) := lt_of_lt_of_le b.isLt (by simp [Instr.format, Format.bits])
theorem CodeFits.firstNotLiteralW9 (c : BitVec 9) : CodeFits.Statement (.firstNotLiteralW9 c) := c.isLt
theorem CodeFits.badRefW9 (c : BitVec 9) : CodeFits.Statement (.badRefW9 c) := c.isLt
theorem CodeFits.litW9 (b : Byte) : CodeFits.Statement (.litW9 b) := lt_of_lt_of_le b.isLt (by simp [Instr.format, Format.bits])
theorem CodeFits.refW9 (c : BitVec 9) : CodeFits.Statement (.refW9 c) := c.isLt
theorem CodeFits.kwkW9 (c : BitVec 9) : CodeFits.Statement (.kwkW9 c) := c.isLt
theorem CodeFits.clrW10 : CodeFits.Statement (.clrW10) := by simp [CodeFits.Statement, Instr.code, Instr.format, Format.bits]
theorem CodeFits.endW10 : CodeFits.Statement (.endW10) := by simp [CodeFits.Statement, Instr.code, Instr.format, Format.bits]
theorem CodeFits.badRefW10 (c : BitVec 10) : CodeFits.Statement (.badRefW10 c) := c.isLt
theorem CodeFits.litW10 (b : Byte) : CodeFits.Statement (.litW10 b) := lt_of_lt_of_le b.isLt (by simp [Instr.format, Format.bits])
theorem CodeFits.refW10 (c : BitVec 10) : CodeFits.Statement (.refW10 c) := c.isLt
theorem CodeFits.kwkW10 (c : BitVec 10) : CodeFits.Statement (.kwkW10 c) := c.isLt
theorem CodeFits.clrW11 : CodeFits.Statement (.clrW11) := by simp [CodeFits.Statement, Instr.code, Instr.format, Format.bits]
theorem CodeFits.endW11 : CodeFits.Statement (.endW11) := by simp [CodeFits.Statement, Instr.code, Instr.format, Format.bits]
theorem CodeFits.badRefW11 (c : BitVec 11) : CodeFits.Statement (.badRefW11 c) := c.isLt
theorem CodeFits.litW11 (b : Byte) : CodeFits.Statement (.litW11 b) := lt_of_lt_of_le b.isLt (by simp [Instr.format, Format.bits])
theorem CodeFits.refW11 (c : BitVec 11) : CodeFits.Statement (.refW11 c) := c.isLt
theorem CodeFits.kwkW11 (c : BitVec 11) : CodeFits.Statement (.kwkW11 c) := c.isLt
theorem CodeFits.clrW12 : CodeFits.Statement (.clrW12) := by simp [CodeFits.Statement, Instr.code, Instr.format, Format.bits]
theorem CodeFits.endW12 : CodeFits.Statement (.endW12) := by simp [CodeFits.Statement, Instr.code, Instr.format, Format.bits]
theorem CodeFits.badRefW12 (c : BitVec 12) : CodeFits.Statement (.badRefW12 c) := c.isLt
theorem CodeFits.tableFullW12 (c : BitVec 12) : CodeFits.Statement (.tableFullW12 c) := c.isLt
theorem CodeFits.litW12 (b : Byte) : CodeFits.Statement (.litW12 b) := lt_of_lt_of_le b.isLt (by simp [Instr.format, Format.bits])
theorem CodeFits.refW12 (c : BitVec 12) : CodeFits.Statement (.refW12 c) := c.isLt
theorem CodeFits.kwkW12 (c : BitVec 12) : CodeFits.Statement (.kwkW12 c) := c.isLt

theorem Occurs.clrW9 : Occurs.Statement (.clrW9) :=
  occurs_of_row _ (by simp [Instr.cls, Instr.format]) (by simp [Instr.cls, Instr.format]) (by simp [Instr.cls])
    (by simp [Instr.cls, Instr.code]) (by simp [Instr.cls, Instr.code]) (CodeFits.clrW9)
theorem Occurs.endW9 : Occurs.Statement (.endW9) :=
  occurs_of_row _ (by simp [Instr.cls, Instr.format]) (by simp [Instr.cls, Instr.format]) (by simp [Instr.cls])
    (by simp [Instr.cls, Instr.code]) (by simp [Instr.cls, Instr.code]) (CodeFits.endW9)
theorem Occurs.firstW9 (b : Byte) : Occurs.Statement (.firstW9 b) :=
  occurs_of_row _ (by simp [Instr.cls, Instr.format]) (by simp [Instr.cls, Instr.format]) (fun _ => Nat.le_of_lt_succ b.isLt)
    (by simp [Instr.cls, Instr.code]) (by simp [Instr.cls, Instr.code]) (CodeFits.firstW9 b)
theorem Occurs.firstNotLiteralW9 (c : BitVec 9) : Occurs.Statement (.firstNotLiteralW9 c) :=
  occurs_of_row _ (by simp [Instr.cls, Instr.format]) (by simp [Instr.cls, Instr.format]) (by simp [Instr.cls])
    (by simp [Instr.cls, Instr.code]) (by simp [Instr.cls, Instr.code]) (CodeFits.firstNotLiteralW9 c)
theorem Occurs.badRefW9 (c : BitVec 9) : Occurs.Statement (.badRefW9 c) :=
  occurs_of_row _ (by simp [Instr.cls, Instr.format]) (by simp [Instr.cls, Instr.format]) (by simp [Instr.cls])
    (by simp [Instr.cls, Instr.code]) (by simp [Instr.cls, Instr.code]) (CodeFits.badRefW9 c)
theorem Occurs.litW9 (b : Byte) : Occurs.Statement (.litW9 b) :=
  occurs_of_row _ (by simp [Instr.cls, Instr.format]) (by simp [Instr.cls, Instr.format]) (fun _ => Nat.le_of_lt_succ b.isLt)
    (by simp [Instr.cls, Instr.code]) (by simp [Instr.cls, Instr.code]) (CodeFits.litW9 b)
theorem Occurs.refW9 (c : BitVec 9) : Occurs.Statement (.refW9 c) :=
  occurs_of_row _ (by simp [Instr.cls, Instr.format]) (by simp [Instr.cls, Instr.format]) (by simp [Instr.cls])
    (by simp [Instr.cls, Instr.code]) (by simp [Instr.cls, Instr.code]) (CodeFits.refW9 c)
theorem Occurs.kwkW9 (c : BitVec 9) : Occurs.Statement (.kwkW9 c) :=
  occurs_of_row _ (by simp [Instr.cls, Instr.format]) (by simp [Instr.cls, Instr.format]) (by simp [Instr.cls])
    (by simp [Instr.cls, Instr.code]) (by simp [Instr.cls, Instr.code]) (CodeFits.kwkW9 c)
theorem Occurs.clrW10 : Occurs.Statement (.clrW10) :=
  occurs_of_row _ (by simp [Instr.cls, Instr.format]) (by simp [Instr.cls, Instr.format]) (by simp [Instr.cls])
    (by simp [Instr.cls, Instr.code]) (by simp [Instr.cls, Instr.code]) (CodeFits.clrW10)
theorem Occurs.endW10 : Occurs.Statement (.endW10) :=
  occurs_of_row _ (by simp [Instr.cls, Instr.format]) (by simp [Instr.cls, Instr.format]) (by simp [Instr.cls])
    (by simp [Instr.cls, Instr.code]) (by simp [Instr.cls, Instr.code]) (CodeFits.endW10)
theorem Occurs.badRefW10 (c : BitVec 10) : Occurs.Statement (.badRefW10 c) :=
  occurs_of_row _ (by simp [Instr.cls, Instr.format]) (by simp [Instr.cls, Instr.format]) (by simp [Instr.cls])
    (by simp [Instr.cls, Instr.code]) (by simp [Instr.cls, Instr.code]) (CodeFits.badRefW10 c)
theorem Occurs.litW10 (b : Byte) : Occurs.Statement (.litW10 b) :=
  occurs_of_row _ (by simp [Instr.cls, Instr.format]) (by simp [Instr.cls, Instr.format]) (fun _ => Nat.le_of_lt_succ b.isLt)
    (by simp [Instr.cls, Instr.code]) (by simp [Instr.cls, Instr.code]) (CodeFits.litW10 b)
theorem Occurs.refW10 (c : BitVec 10) : Occurs.Statement (.refW10 c) :=
  occurs_of_row _ (by simp [Instr.cls, Instr.format]) (by simp [Instr.cls, Instr.format]) (by simp [Instr.cls])
    (by simp [Instr.cls, Instr.code]) (by simp [Instr.cls, Instr.code]) (CodeFits.refW10 c)
theorem Occurs.kwkW10 (c : BitVec 10) : Occurs.Statement (.kwkW10 c) :=
  occurs_of_row _ (by simp [Instr.cls, Instr.format]) (by simp [Instr.cls, Instr.format]) (by simp [Instr.cls])
    (by simp [Instr.cls, Instr.code]) (by simp [Instr.cls, Instr.code]) (CodeFits.kwkW10 c)
theorem Occurs.clrW11 : Occurs.Statement (.clrW11) :=
  occurs_of_row _ (by simp [Instr.cls, Instr.format]) (by simp [Instr.cls, Instr.format]) (by simp [Instr.cls])
    (by simp [Instr.cls, Instr.code]) (by simp [Instr.cls, Instr.code]) (CodeFits.clrW11)
theorem Occurs.endW11 : Occurs.Statement (.endW11) :=
  occurs_of_row _ (by simp [Instr.cls, Instr.format]) (by simp [Instr.cls, Instr.format]) (by simp [Instr.cls])
    (by simp [Instr.cls, Instr.code]) (by simp [Instr.cls, Instr.code]) (CodeFits.endW11)
theorem Occurs.badRefW11 (c : BitVec 11) : Occurs.Statement (.badRefW11 c) :=
  occurs_of_row _ (by simp [Instr.cls, Instr.format]) (by simp [Instr.cls, Instr.format]) (by simp [Instr.cls])
    (by simp [Instr.cls, Instr.code]) (by simp [Instr.cls, Instr.code]) (CodeFits.badRefW11 c)
theorem Occurs.litW11 (b : Byte) : Occurs.Statement (.litW11 b) :=
  occurs_of_row _ (by simp [Instr.cls, Instr.format]) (by simp [Instr.cls, Instr.format]) (fun _ => Nat.le_of_lt_succ b.isLt)
    (by simp [Instr.cls, Instr.code]) (by simp [Instr.cls, Instr.code]) (CodeFits.litW11 b)
theorem Occurs.refW11 (c : BitVec 11) : Occurs.Statement (.refW11 c) :=
  occurs_of_row _ (by simp [Instr.cls, Instr.format]) (by simp [Instr.cls, Instr.format]) (by simp [Instr.cls])
    (by simp [Instr.cls, Instr.code]) (by simp [Instr.cls, Instr.code]) (CodeFits.refW11 c)
theorem Occurs.kwkW11 (c : BitVec 11) : Occurs.Statement (.kwkW11 c) :=
  occurs_of_row _ (by simp [Instr.cls, Instr.format]) (by simp [Instr.cls, Instr.format]) (by simp [Instr.cls])
    (by simp [Instr.cls, Instr.code]) (by simp [Instr.cls, Instr.code]) (CodeFits.kwkW11 c)
theorem Occurs.clrW12 : Occurs.Statement (.clrW12) :=
  occurs_of_row _ (by simp [Instr.cls, Instr.format]) (by simp [Instr.cls, Instr.format]) (by simp [Instr.cls])
    (by simp [Instr.cls, Instr.code]) (by simp [Instr.cls, Instr.code]) (CodeFits.clrW12)
theorem Occurs.endW12 : Occurs.Statement (.endW12) :=
  occurs_of_row _ (by simp [Instr.cls, Instr.format]) (by simp [Instr.cls, Instr.format]) (by simp [Instr.cls])
    (by simp [Instr.cls, Instr.code]) (by simp [Instr.cls, Instr.code]) (CodeFits.endW12)
theorem Occurs.badRefW12 (c : BitVec 12) : Occurs.Statement (.badRefW12 c) :=
  occurs_of_row _ (by simp [Instr.cls, Instr.format]) (by simp [Instr.cls, Instr.format]) (by simp [Instr.cls])
    (by simp [Instr.cls, Instr.code]) (by simp [Instr.cls, Instr.code]) (CodeFits.badRefW12 c)
theorem Occurs.tableFullW12 (c : BitVec 12) : Occurs.Statement (.tableFullW12 c) :=
  occurs_of_row _ (by simp [Instr.cls, Instr.format]) (by simp [Instr.cls, Instr.format]) (by simp [Instr.cls])
    (by simp [Instr.cls, Instr.code]) (by simp [Instr.cls, Instr.code]) (CodeFits.tableFullW12 c)
theorem Occurs.litW12 (b : Byte) : Occurs.Statement (.litW12 b) :=
  occurs_of_row _ (by simp [Instr.cls, Instr.format]) (by simp [Instr.cls, Instr.format]) (fun _ => Nat.le_of_lt_succ b.isLt)
    (by simp [Instr.cls, Instr.code]) (by simp [Instr.cls, Instr.code]) (CodeFits.litW12 b)
theorem Occurs.refW12 (c : BitVec 12) : Occurs.Statement (.refW12 c) :=
  occurs_of_row _ (by simp [Instr.cls, Instr.format]) (by simp [Instr.cls, Instr.format]) (by simp [Instr.cls])
    (by simp [Instr.cls, Instr.code]) (by simp [Instr.cls, Instr.code]) (CodeFits.refW12 c)
theorem Occurs.kwkW12 (c : BitVec 12) : Occurs.Statement (.kwkW12 c) :=
  occurs_of_row _ (by simp [Instr.cls, Instr.format]) (by simp [Instr.cls, Instr.format]) (by simp [Instr.cls])
    (by simp [Instr.cls, Instr.code]) (by simp [Instr.cls, Instr.code]) (CodeFits.kwkW12 c)

end Sys2Proof.Laws
end

