-- ==== Sys2Proof/Tests/Slice0.lean ====
section
/-! SUPPORT. Tests of the model. Expected results are from the spec: its encodings, its worked examples and
vectors (95_test_vectors.md), or its rules worked by hand; and, for each statement with hypotheses, a concrete case
that meets them. -/

-- One declaration at a time: the kernel's evaluations below would otherwise all be queued at once.
set_option Elab.async false

namespace Sys2Proof.Tests

open Sys2Proof Sys2Proof.Machine Sys2Proof.Claims

/-! ## Ill-formed terms, one for each check of `Instr.wf` -/

theorem test_wf_refuses_firstNotLiteral_below_258 : (Instr.firstNotLiteralW9 257).wf = false := by decide
theorem test_wf_refuses_badRef_at_least_length : (Instr.badRefW10 511).wf = false := by decide
theorem test_wf_refuses_tableFull_clear : (Instr.tableFullW12 256).wf = false := by decide
theorem test_wf_refuses_tableFull_end : (Instr.tableFullW12 257).wf = false := by decide
theorem test_wf_refuses_ref_control : (Instr.refW9 257).wf = false := by decide
theorem test_wf_refuses_ref_at_length : (Instr.refW9 510).wf = false := by decide
theorem test_wf_refuses_kwk_below_format : (Instr.kwkW10 510).wf = false := by decide
theorem test_wf_refuses_kwk_above_format : (Instr.kwkW10 1023).wf = false := by decide
theorem test_wf_accepts_kwk_4095 : (Instr.kwkW12 4095).wf = true := by decide

/-! ## Decoding: each constructor from a word written out from the encoding column of the opcode table -/

theorem test_decode_clrW9 :
    decodeBytes ⟨.w9, false, 258⟩ [0b10000000, 0b00000000] = .ok (.clrW9, List.replicate 7 false) := by decide
theorem test_decode_endW9 :
    decodeBytes ⟨.w9, false, 258⟩ [0b10000000, 0b10000000] = .ok (.endW9, List.replicate 7 false) := by decide
theorem test_decode_firstW9 :
    decodeBytes ⟨.w9, true, 258⟩ [0b00010110, 0b10000000] = .ok ((.firstW9 45), List.replicate 7 false) := by decide
theorem test_decode_firstNotLiteralW9 :
    decodeBytes ⟨.w9, true, 258⟩ [0b10000001, 0b00000000] = .ok ((.firstNotLiteralW9 258), List.replicate 7 false) := by decide
theorem test_decode_badRefW9 :
    decodeBytes ⟨.w9, false, 258⟩ [0b10000001, 0b10000000] = .ok ((.badRefW9 259), List.replicate 7 false) := by decide
theorem test_decode_litW9 :
    decodeBytes ⟨.w9, false, 258⟩ [0b00100000, 0b10000000] = .ok ((.litW9 65), List.replicate 7 false) := by decide
theorem test_decode_refW9 :
    decodeBytes ⟨.w9, false, 260⟩ [0b10000001, 0b10000000] = .ok ((.refW9 259), List.replicate 7 false) := by decide
theorem test_decode_kwkW9 :
    decodeBytes ⟨.w9, false, 258⟩ [0b10000001, 0b00000000] = .ok ((.kwkW9 258), List.replicate 7 false) := by decide
theorem test_decode_clrW10 :
    decodeBytes ⟨.w10, false, 511⟩ [0b01000000, 0b00000000] = .ok (.clrW10, List.replicate 6 false) := by decide
theorem test_decode_endW10 :
    decodeBytes ⟨.w10, false, 511⟩ [0b01000000, 0b01000000] = .ok (.endW10, List.replicate 6 false) := by decide
theorem test_decode_badRefW10 :
    decodeBytes ⟨.w10, false, 511⟩ [0b10000000, 0b00000000] = .ok ((.badRefW10 512), List.replicate 6 false) := by decide
theorem test_decode_litW10 :
    decodeBytes ⟨.w10, false, 511⟩ [0b00010000, 0b01000000] = .ok ((.litW10 65), List.replicate 6 false) := by decide
theorem test_decode_refW10 :
    decodeBytes ⟨.w10, false, 511⟩ [0b01000000, 0b10000000] = .ok ((.refW10 258), List.replicate 6 false) := by decide
theorem test_decode_kwkW10 :
    decodeBytes ⟨.w10, false, 511⟩ [0b01111111, 0b11000000] = .ok ((.kwkW10 511), List.replicate 6 false) := by decide
theorem test_decode_clrW11 :
    decodeBytes ⟨.w11, false, 1023⟩ [0b00100000, 0b00000000] = .ok (.clrW11, List.replicate 5 false) := by decide
theorem test_decode_endW11 :
    decodeBytes ⟨.w11, false, 1023⟩ [0b00100000, 0b00100000] = .ok (.endW11, List.replicate 5 false) := by decide
theorem test_decode_badRefW11 :
    decodeBytes ⟨.w11, false, 1023⟩ [0b10000000, 0b00000000] = .ok ((.badRefW11 1024), List.replicate 5 false) := by decide
theorem test_decode_litW11 :
    decodeBytes ⟨.w11, false, 1023⟩ [0b00001000, 0b00100000] = .ok ((.litW11 65), List.replicate 5 false) := by decide
theorem test_decode_refW11 :
    decodeBytes ⟨.w11, false, 1023⟩ [0b00100000, 0b01000000] = .ok ((.refW11 258), List.replicate 5 false) := by decide
theorem test_decode_kwkW11 :
    decodeBytes ⟨.w11, false, 1023⟩ [0b01111111, 0b11100000] = .ok ((.kwkW11 1023), List.replicate 5 false) := by decide
theorem test_decode_clrW12 :
    decodeBytes ⟨.w12, false, 2047⟩ [0b00010000, 0b00000000] = .ok (.clrW12, List.replicate 4 false) := by decide
theorem test_decode_endW12 :
    decodeBytes ⟨.w12, false, 2047⟩ [0b00010000, 0b00010000] = .ok (.endW12, List.replicate 4 false) := by decide
theorem test_decode_badRefW12 :
    decodeBytes ⟨.w12, false, 2047⟩ [0b10000000, 0b00000000] = .ok ((.badRefW12 2048), List.replicate 4 false) := by decide
theorem test_decode_tableFullW12 :
    decodeBytes ⟨.w12, false, 4096⟩ [0b00000100, 0b01000000] = .ok ((.tableFullW12 68), List.replicate 4 false) := by decide
theorem test_decode_litW12 :
    decodeBytes ⟨.w12, false, 2047⟩ [0b00000100, 0b00010000] = .ok ((.litW12 65), List.replicate 4 false) := by decide
theorem test_decode_refW12 :
    decodeBytes ⟨.w12, false, 2047⟩ [0b00010000, 0b00100000] = .ok ((.refW12 258), List.replicate 4 false) := by decide
theorem test_decode_kwkW12 :
    decodeBytes ⟨.w12, false, 2047⟩ [0b01111111, 0b11110000] = .ok ((.kwkW12 2047), List.replicate 4 false) := by decide

/-- The decoder rejects by name: too few bits. -/
theorem test_decode_too_few_bits : decodeBytes ⟨.w9, true, 258⟩ [0x80] = .error .tooFewBits := by decide
/-- The decoder rejects by name: a value that does not fit the width (U10). -/
theorem test_decode_code_too_wide : decodeCode ⟨.w9, true, 258⟩ 512 = .error .codeTooWide := by decide
/-- The decoder rejects by name: FIRST has no row in 10 bits (R44). -/
theorem test_decode_no_row : decodeCode ⟨.w10, true, 511⟩ 65 = .error .noTableRow := by decide
/-- 511 exceeds every table length that is read in 9 bits (R47). -/
theorem test_decode_all_ones_nine_bits : decodeCode ⟨.w9, false, 510⟩ 511 = .ok (.badRefW9 511) := by decide

theorem test_table_has_27_rows : opcodeRows.length = 27 := by decide
theorem test_table_word_clr : decodeTableWord 16 0x100 = some .clrW9 := by decide
theorem test_table_word_lit_ten_bits : decodeTableWord 10 0x041 = some (.litW10 0x41) := by decide

/-! ## One step of each instruction -/

/-- A running decoder about to read the first bits of `input`, with the shortest table of a width, of entries
`"ab"`, a given `PREV`, one byte already output, and an observer. -/
def ready (f : Format) (prev input : ByteString) : State :=
  { input := input, ipos := 0, buf := 0, bpos := 8, width := f
    tab := List.replicate (f.minTlen - 258) [0x61, 0x62], prev := prev, out := [0x7A]
    status := .run, cause := .noCause, ecode := 0, hasTrace := true, trace := [] }

/-- The next state passes a check. -/
def after (r : Result) (check : State → Bool) : Bool :=
  match r with
  | .next t => check t
  | .fault _ | .refused _ => false

/-- `feed` refuses the first value past 0..4095 in a state with the full table (U10). -/
theorem test_feed_out_of_range :
    feed 4096 { ready .w12 [0x31] [] with tab := List.replicate 3838 [0x61, 0x62] } = .notAForm := rfl

theorem test_step_clrW9 :
    after (step (ready .w9 [0x31, 0x32] [0b10000000, 0b00000000])) (fun t => t.tlen == 258 && t.width == .w9 && t.prev == [] && t.out == [0x7A] && t.status == .run && t.bpos == 1) = true := by
  decide +kernel
theorem test_step_endW9 :
    after (step (ready .w9 [0x31, 0x32] [0b10000000, 0b10000000])) (fun t => t.status == .doneEnd && t.out == [0x7A] && t.prev == [0x31, 0x32]
      && t.tlen == 258 && t.bpos == 1) = true := by
  decide +kernel
theorem test_step_firstW9 :
    after (step (ready .w9 [] [0b00010110, 0b10000000])) (fun t => t.out == [0x7A, 45] && t.prev == [45]
      && t.tlen == 258 && t.trace == [⟨45, .w9, [45], 258⟩]) = true := by
  decide +kernel
theorem test_step_firstNotLiteralW9 :
    after (step (ready .w9 [] [0b10000001, 0b00000000])) (fun t => t.status == .errCorrupt && t.cause == .firstNotLiteral && t.ecode == 258 && t.out == [0x7A] && t.prev == [] && t.trace == []) = true := by
  decide +kernel
theorem test_step_badRefW9 :
    after (step (ready .w9 [0x31, 0x32] [0b10000001, 0b10000000])) (fun t => t.status == .errCorrupt && t.cause == .badRef && t.ecode == 259 && t.out == [0x7A] && t.prev == [0x31, 0x32] && t.trace == []) = true := by
  decide +kernel
theorem test_step_litW9 :
    after (step (ready .w9 [0x31, 0x32] [0b00100000, 0b10000000])) (fun t => t.out == 0x7A :: [0x41] && t.prev == [0x41] && tabRead 258 t == some [0x31, 0x32, 0x41]
      && t.tlen == 259 && t.width == .w9 && t.trace == [⟨65, .w9, [0x41], 259⟩]) = true := by
  decide +kernel
theorem test_step_refW9 :
    after (step { ready .w9 [0x31, 0x32] [0b10000001, 0b00000000] with tab := [[0x61, 0x62]] }) (fun t => t.out == 0x7A :: [0x61, 0x62] && t.prev == [0x61, 0x62] && tabRead 259 t == some [0x31, 0x32, 0x61]
      && t.tlen == 260 && t.width == .w9 && t.trace == [⟨258, .w9, [0x61, 0x62], 260⟩]) = true := by
  decide +kernel
theorem test_step_kwkW9 :
    after (step (ready .w9 [0x31, 0x32] [0b10000001, 0b00000000])) (fun t => t.out == 0x7A :: [0x31, 0x32, 0x31] && t.prev == [0x31, 0x32, 0x31] && tabRead 258 t == some [0x31, 0x32, 0x31]
      && t.tlen == 259 && t.width == .w9 && t.trace == [⟨258, .w9, [0x31, 0x32, 0x31], 259⟩]) = true := by
  decide +kernel
theorem test_step_clrW10 :
    after (step (ready .w10 [0x31, 0x32] [0b01000000, 0b00000000])) (fun t => t.tlen == 258 && t.width == .w9 && t.prev == [] && t.out == [0x7A] && t.status == .run && t.bpos == 2) = true := by
  decide +kernel
theorem test_step_endW10 :
    after (step (ready .w10 [0x31, 0x32] [0b01000000, 0b01000000])) (fun t => t.status == .doneEnd && t.out == [0x7A] && t.prev == [0x31, 0x32]
      && t.tlen == 511 && t.bpos == 2) = true := by
  decide +kernel
theorem test_step_badRefW10 :
    after (step (ready .w10 [0x31, 0x32] [0b10000000, 0b00000000])) (fun t => t.status == .errCorrupt && t.cause == .badRef && t.ecode == 512 && t.out == [0x7A] && t.prev == [0x31, 0x32] && t.trace == []) = true := by
  decide +kernel
theorem test_step_litW10 :
    after (step (ready .w10 [0x31, 0x32] [0b00010000, 0b01000000])) (fun t => t.out == 0x7A :: [0x41] && t.prev == [0x41] && tabRead 511 t == some [0x31, 0x32, 0x41]
      && t.tlen == 512 && t.width == .w10 && t.trace == [⟨65, .w10, [0x41], 512⟩]) = true := by
  decide +kernel
theorem test_step_refW10 :
    after (step (ready .w10 [0x31, 0x32] [0b01000000, 0b10000000])) (fun t => t.out == 0x7A :: [0x61, 0x62] && t.prev == [0x61, 0x62] && tabRead 511 t == some [0x31, 0x32, 0x61]
      && t.tlen == 512 && t.width == .w10 && t.trace == [⟨258, .w10, [0x61, 0x62], 512⟩]) = true := by
  decide +kernel
theorem test_step_kwkW10 :
    after (step (ready .w10 [0x31, 0x32] [0b01111111, 0b11000000])) (fun t => t.out == 0x7A :: [0x31, 0x32, 0x31] && t.prev == [0x31, 0x32, 0x31] && tabRead 511 t == some [0x31, 0x32, 0x31]
      && t.tlen == 512 && t.width == .w10 && t.trace == [⟨511, .w10, [0x31, 0x32, 0x31], 512⟩]) = true := by
  decide +kernel
theorem test_step_clrW11 :
    after (step (ready .w11 [0x31, 0x32] [0b00100000, 0b00000000])) (fun t => t.tlen == 258 && t.width == .w9 && t.prev == [] && t.out == [0x7A] && t.status == .run && t.bpos == 3) = true := by
  decide +kernel
theorem test_step_endW11 :
    after (step (ready .w11 [0x31, 0x32] [0b00100000, 0b00100000])) (fun t => t.status == .doneEnd && t.out == [0x7A] && t.prev == [0x31, 0x32]
      && t.tlen == 1023 && t.bpos == 3) = true := by
  decide +kernel
theorem test_step_badRefW11 :
    after (step (ready .w11 [0x31, 0x32] [0b10000000, 0b00000000])) (fun t => t.status == .errCorrupt && t.cause == .badRef && t.ecode == 1024 && t.out == [0x7A] && t.prev == [0x31, 0x32] && t.trace == []) = true := by
  decide +kernel
theorem test_step_litW11 :
    after (step (ready .w11 [0x31, 0x32] [0b00001000, 0b00100000])) (fun t => t.out == 0x7A :: [0x41] && t.prev == [0x41] && tabRead 1023 t == some [0x31, 0x32, 0x41]
      && t.tlen == 1024 && t.width == .w11 && t.trace == [⟨65, .w11, [0x41], 1024⟩]) = true := by
  decide +kernel
theorem test_step_refW11 :
    after (step (ready .w11 [0x31, 0x32] [0b00100000, 0b01000000])) (fun t => t.out == 0x7A :: [0x61, 0x62] && t.prev == [0x61, 0x62] && tabRead 1023 t == some [0x31, 0x32, 0x61]
      && t.tlen == 1024 && t.width == .w11 && t.trace == [⟨258, .w11, [0x61, 0x62], 1024⟩]) = true := by
  decide +kernel
theorem test_step_kwkW11 :
    after (step (ready .w11 [0x31, 0x32] [0b01111111, 0b11100000])) (fun t => t.out == 0x7A :: [0x31, 0x32, 0x31] && t.prev == [0x31, 0x32, 0x31] && tabRead 1023 t == some [0x31, 0x32, 0x31]
      && t.tlen == 1024 && t.width == .w11 && t.trace == [⟨1023, .w11, [0x31, 0x32, 0x31], 1024⟩]) = true := by
  decide +kernel
theorem test_step_clrW12 :
    after (step (ready .w12 [0x31, 0x32] [0b00010000, 0b00000000])) (fun t => t.tlen == 258 && t.width == .w9 && t.prev == [] && t.out == [0x7A] && t.status == .run && t.bpos == 4) = true := by
  decide +kernel
theorem test_step_endW12 :
    after (step (ready .w12 [0x31, 0x32] [0b00010000, 0b00010000])) (fun t => t.status == .doneEnd && t.out == [0x7A] && t.prev == [0x31, 0x32]
      && t.tlen == 2047 && t.bpos == 4) = true := by
  decide +kernel
theorem test_step_badRefW12 :
    after (step (ready .w12 [0x31, 0x32] [0b10000000, 0b00000000])) (fun t => t.status == .errCorrupt && t.cause == .badRef && t.ecode == 2048 && t.out == [0x7A] && t.prev == [0x31, 0x32] && t.trace == []) = true := by
  decide +kernel
theorem test_step_tableFullW12 :
    after (step { ready .w12 [0x31, 0x32] [0b00000100, 0b01000000] with tab := List.replicate 3838 [0x61, 0x62] }) (fun t => t.status == .errCorrupt && t.cause == .tableFull && t.ecode == 68 && t.out == [0x7A] && t.prev == [0x31, 0x32] && t.trace == []) = true := by
  decide +kernel
theorem test_step_litW12 :
    after (step (ready .w12 [0x31, 0x32] [0b00000100, 0b00010000])) (fun t => t.out == 0x7A :: [0x41] && t.prev == [0x41] && tabRead 2047 t == some [0x31, 0x32, 0x41]
      && t.tlen == 2048 && t.width == .w12 && t.trace == [⟨65, .w12, [0x41], 2048⟩]) = true := by
  decide +kernel
theorem test_step_refW12 :
    after (step (ready .w12 [0x31, 0x32] [0b00010000, 0b00100000])) (fun t => t.out == 0x7A :: [0x61, 0x62] && t.prev == [0x61, 0x62] && tabRead 2047 t == some [0x31, 0x32, 0x61]
      && t.tlen == 2048 && t.width == .w12 && t.trace == [⟨258, .w12, [0x61, 0x62], 2048⟩]) = true := by
  decide +kernel
theorem test_step_kwkW12 :
    after (step (ready .w12 [0x31, 0x32] [0b01111111, 0b11110000])) (fun t => t.out == 0x7A :: [0x31, 0x32, 0x31] && t.prev == [0x31, 0x32, 0x31] && tabRead 2047 t == some [0x31, 0x32, 0x31]
      && t.tlen == 2048 && t.width == .w12 && t.trace == [⟨2047, .w12, [0x31, 0x32, 0x31], 2048⟩]) = true := by
  decide +kernel

/-! ## Corners of the rules -/

/-- R68, its worked example: the append that makes TLEN 511 sets width 10 for the next code; the code itself was
read in 9 bits. -/
theorem test_width_ten_at_511 :
    after (step { ready .w9 [0x31] [0b00100000, 0b10000000] with tab := List.replicate 252 [0x61, 0x62] })
      (fun t => t.tlen == 511 && t.width == .w10 && t.cursor == 9) = true := by
  decide +kernel
/-- R66d: at TLEN 4095 the value 4095 is a legal KWK and fills the table; there is no 13-bit width (R68). -/
theorem test_kwk_4095_fills_the_table :
    after (step { ready .w12 [0x31] [0xFF, 0xF0] with tab := List.replicate 3837 [0x61, 0x62] })
      (fun t => t.tlen == 4096 && t.width == .w12 && t.status == .run && t.prev == [0x31, 0x31]) = true := by
  decide +kernel
/-- D5: CLEAR is accepted with a full table. -/
theorem test_clear_at_full_table :
    after (step { ready .w12 [0x31] [0x10, 0x00] with tab := List.replicate 3838 [0x61, 0x62] })
      (fun t => t.tlen == 258 && t.width == .w9) = true := by
  decide +kernel
/-- S2: END as the very first code is a normal end (D2). -/
theorem test_end_first : after (step (startDecode [0x80, 0x80] State.reset))
    (fun t => t.status == .doneEnd && t.out == [] && t.ipos == 2 && t.bpos == 1) = true := by decide +kernel
/-- V3, n = 1: a cut inside the first code ends gracefully. -/
theorem test_truncated_first_code : after (step (startDecode [0x80] State.reset))
    (fun t => t.status == .doneEos && t.ipos == 1 && t.bpos == 8 && t.buf == 0x80) = true := by decide +kernel
/-- R79: nothing happens after the end. -/
theorem test_stopped_after_end : step { State.reset with status := .doneEnd } = .fault .stopped := by rfl
/-- 40_bitreader.md section 1, the worked example: 256 from `80 0B`. -/
theorem test_readBits_first_code :
    readBits 9 (startDecode [0x80, 0x0B] State.reset) =
      .value 256 { startDecode [0x80, 0x0B] State.reset with ipos := 2, buf := 0x0B, bpos := 1 } := by rfl

/-- A reader in the middle of a byte, with the bytes not yet pulled. -/
def reader (buf : Byte) (bpos : Nat) (rest : ByteString) : State :=
  { State.reset with input := buf :: rest, ipos := 1, buf := buf, bpos := bpos }

/-- What a `read_bits` answered: value, pulls, BUF, BPOS. -/
def answered : ReadOutcome → Option Nat × Nat × Byte × Nat
  | .value v t => (some v, t.ipos - 1, t.buf, t.bpos)
  | .endOfStream t => (none, t.ipos - 1, t.buf, t.bpos)
  | .notAForm => (none, 0, 0, 0)

theorem test_readBits_B10 : answered (readBits 12 (reader 0xA5 5 [0xC3, 0x3C])) = (some 0xB86, 2, 0x3C, 1) := by
  decide +kernel
theorem test_readBits_B15 :
    answered (readBits 32 (reader 0xFF 4 [0x12, 0x34, 0x56, 0x78])) = (some 0xF1234567, 4, 0x78, 4) := by
  decide +kernel
theorem test_readBits_B19 : answered (readBits 11 (reader 0xA5 6 [0xC3])) = (none, 1, 0xC3, 8) := by decide +kernel
theorem test_readBits_B5 : answered (readBits 5 (reader 0xA5 3 [])) = (some 5, 0, 0xA5, 8) := by decide +kernel
/-- RT3: the test-only encoder gives the fixture byte for byte. -/
theorem test_encoder_fixture :
    encodeStream [0x2D, 0x2D, 0x2D, 0x2D, 0x2D, 0x41, 0x2D, 0x2D, 0x2D, 0x42] =
      [0x80, 0x0B, 0x60, 0x50, 0x22, 0x0C, 0x0C, 0x85, 0x01] := by decide +kernel
/-- V1, the literal scenario: ten bytes with five leading dashes (C1). -/
theorem test_fixture_decodes :
    decodeStream [0x80, 0x0B, 0x60, 0x50, 0x22, 0x0C, 0x0C, 0x85, 0x01] =
      ⟨.doneEnd, .noCause, 0, [0x2D, 0x2D, 0x2D, 0x2D, 0x2D, 0x41, 0x2D, 0x2D, 0x2D, 0x42]⟩ := by decide +kernel
/-- P1 in instructions: the codes of the fixture at their widths are its bytes. -/
theorem test_encode_fixture :
    encode [.clrW9, .firstW9 0x2D, .kwkW9 258, .refW9 258, .litW9 0x41, .refW9 259, .litW9 0x42, .endW9] =
      [0x80, 0x0B, 0x60, 0x50, 0x22, 0x0C, 0x0C, 0x85, 0x01] := by decide +kernel
/-- P2 (S8): the notation of R50 packed, and decoded by the public operation. -/
theorem test_assemble_and_decode_P2 :
    assemble [.clr, .lit 0x41, .lit 0x42, .ref 258, .kwk 260, .endOfData] =
      [0x80, 0x10, 0x48, 0x50, 0x28, 0x24, 0x04] ∧
    decodePublic [0x80, 0x10, 0x48, 0x50, 0x28, 0x24, 0x04] = some [0x41, 0x42, 0x41, 0x42, 0x41, 0x42, 0x41] := by
  decide +kernel
/-- S6: the public operation fails on CorruptStream. -/
theorem test_decode_corrupt_fails : decodePublic [0x80, 0x0B, 0x60, 0x80] = none := by decide +kernel

/-! ## A concrete case for the hypotheses of each statement -/

/-- V1 after its third code: bit 27 of the fixture, one entry, `PREV = "--"`. -/
def mid : State :=
  { startDecode [0x80, 0x0B, 0x60, 0x50, 0x22, 0x0C, 0x0C, 0x85, 0x01] State.reset with
    ipos := 4, buf := 0x50, bpos := 3, tab := [[0x2D, 0x2D]], prev := [0x2D, 0x2D], out := [0x2D, 0x2D, 0x2D] }

/-- A decode about to read the first bit of some bytes. -/
def started (bytes : ByteString) : State := startDecode bytes State.reset

/-- A table of `n` two-byte entries and the width it forces, about to read some bytes. -/
def filled (n : Nat) (bytes : ByteString) : State :=
  { started bytes with tab := List.replicate n [0x41, 0x41], prev := [0x41], width := widthOf (258 + n) }

theorem mid_inv : mid.Inv :=
  ⟨⟨by decide, by decide, by decide, by decide⟩, ⟨by decide, by decide, by decide, by decide⟩,
    ⟨by decide, by decide⟩⟩

theorem mid_linked : mid.Linked := by
  constructor
  · intro k x hx
    match k, hx with
    | 0, hx => exact ⟨45, by decide, by
      obtain rfl : [0x2D, 0x2D] = x := by simpa [mid] using hx
      decide⟩
    | k + 1, hx => simp [mid] at hx
  · exact fun _ => ⟨258, by decide, by decide⟩

theorem started_inv (bytes : ByteString) : (started bytes).Inv :=
  ⟨⟨by simp [started], by simp [started], by simp [started], by simp [started]⟩,
    ⟨memory_wf_startDecode _ _, rfl, by simp [started], by simp [started]⟩, ⟨by simp [started], by simp [started]⟩⟩

theorem filled_tlen (n : Nat) (bytes : ByteString) : (filled n bytes).tlen = 258 + n := by
  simp [filled, State.tlen]

/-- A table length met by repeated entries is a state between steps. -/
theorem filled_engineInv {n : Nat} (h : n ≤ 3838) (bytes : ByteString) : (filled n bytes).EngineInv := by
  refine ⟨(memory_wf_iff _).2 ⟨by simp [filled, State.tlen]; omega, fun k x hx => ?_⟩,
    by simp [filled, State.tlen], by simp [filled], by simp [filled, State.tlen]⟩
  simp only [filled, List.getElem?_replicate] at hx
  split at hx
  · obtain rfl : [0x41, 0x41] = x := by simpa using hx
    simp
  · cases hx

theorem filled_inv {n : Nat} (h : n ≤ 3838) (bytes : ByteString) : (filled n bytes).Inv :=
  ⟨⟨by simp [filled, started], by simp [filled, started], by simp [filled, started], by simp [filled, started]⟩,
    filled_engineInv h bytes, ⟨by simp [filled, started], by simp [filled, started]⟩⟩

theorem witness_DecodeOfEncodeIsIdentity :
    ((Instr.firstW9 255).wf = true ∧ (Instr.firstW9 255).selected ⟨.w9, true, 258⟩ = true) ∧
    ((Instr.firstNotLiteralW9 258).wf = true ∧ (Instr.firstNotLiteralW9 258).selected ⟨.w9, true, 258⟩ = true) ∧
    ((Instr.badRefW9 259).wf = true ∧ (Instr.badRefW9 259).selected ⟨.w9, false, 258⟩ = true) ∧
    ((Instr.tableFullW12 255).wf = true ∧ (Instr.tableFullW12 255).selected ⟨.w12, false, 4096⟩ = true) ∧
    ((Instr.litW11 255).wf = true ∧ (Instr.litW11 255).selected ⟨.w11, false, 1023⟩ = true) ∧
    ((Instr.refW10 1021).wf = true ∧ (Instr.refW10 1021).selected ⟨.w10, false, 1022⟩ = true) ∧
    ((Instr.kwkW12 4095).wf = true ∧ (Instr.kwkW12 4095).selected ⟨.w12, false, 4095⟩ = true) ∧
    ((Instr.clrW10).wf = true ∧ (Instr.clrW10).selected ⟨.w10, false, 511⟩ = true) ∧
    ((Instr.endW9).wf = true ∧ (Instr.endW9).selected ⟨.w9, true, 258⟩ = true) := by decide
theorem witness_EncodeOfDecodeIsIdentity :
    (⟨.w9, false, 258⟩ : DecodeCtx).ok = true ∧
      decodeBits ⟨.w9, false, 258⟩ [true, false, false, false, false, false, false, true, false, true] =
        .ok (.kwkW9 258, [true]) := by decide
theorem witness_EveryCodeInExactlyOneRow :
    ((⟨.w9, true, 258⟩ : DecodeCtx).ok = true ∧ 511 < 2 ^ Format.w9.bits) ∧
    ((⟨.w12, false, 4096⟩ : DecodeCtx).ok = true ∧ 4095 < 2 ^ Format.w12.bits) := by decide
theorem witness_OpcodeTableInPriorityOrder :
    ((⟨.w9, false, 510⟩ : DecodeCtx).ok = true ∧ 510 < 2 ^ Format.w9.bits ∧
      decodeCode ⟨.w9, false, 510⟩ 510 = .ok (.kwkW9 510)) ∧
    ((⟨.w12, false, 4096⟩ : DecodeCtx).ok = true ∧ 4095 < 2 ^ Format.w12.bits ∧
      tableDecode ⟨.w12, false, 4096⟩ 4095 = some (.tableFullW12 4095)) := by decide
theorem witness_AllOnesIllegalBelowTwelveBits :
    ((⟨.w9, true, 258⟩ : DecodeCtx).ok = true ∧ Format.w9 ≠ .w12) ∧
    ((⟨.w11, false, 2046⟩ : DecodeCtx).ok = true ∧ Format.w11 ≠ .w12) := by decide
/-- Both clauses at their boundary: exactly `n` bits left, and one fewer. -/
theorem witness_ReadBitsFollowsStreamLaw :
    mid.ReaderInv ∧ (1 ≤ 32 ∧ 32 ≤ 32 ∧ mid.cursor + 32 ≤ 8 * mid.inputLength) ∧
    ((started [0x80]).ReaderInv ∧ (started [0x80]).cursor + 8 = 8 * (started [0x80]).inputLength ∧
      8 * (started [0x80]).inputLength < (started [0x80]).cursor + 9) :=
  ⟨mid_inv.reader, by decide, (started_inv _).reader, by decide, by decide⟩
theorem witness_FinishingPassTakesHighBits :
    (mid.bpos ≤ 8 ∧ 5 ≤ 8 - mid.bpos) ∧ ((started []).bpos ≤ 8 ∧ 0 ≤ 8 - (started []).bpos) := by decide
theorem witness_ContinuingPassAndPullCount :
    8 - mid.bpos < 6 ∧ (∃ v t, readBits 5 mid = .value v t) ∧ (∃ v t, readBits 6 mid = .value v t) ∧
      (∃ v t, readBits 9 mid = .value v t) ∧ ∃ v t, readBits 12 mid = .value v t :=
  ⟨by decide, ⟨_, _, rfl⟩, ⟨_, _, rfl⟩, ⟨_, _, rfl⟩, _, _, rfl⟩
theorem witness_ExhaustionExactlyWhenShort :
    (started [0x80]).ReaderInv ∧ 1 ≤ 9 ∧ 9 ≤ 32 ∧
      8 * (started [0x80]).inputLength - (started [0x80]).cursor < 9 ∧
      (∃ t, readBits 9 (started [0x80]) = .endOfStream t) ∧
      ∃ v t, readBits 8 (started [0x80]) = .value v t :=
  ⟨(started_inv _).reader, by decide, by decide, by decide, ⟨_, rfl⟩, _, _, rfl⟩
theorem witness_ReadBitsTouchesOnlyTheReader :
    mid.ReaderInv ∧ (∃ v t, readBits 9 mid = .value v t) ∧ ∃ t, readBits 9 (started []) = .endOfStream t :=
  ⟨mid_inv.reader, ⟨_, _, rfl⟩, _, rfl⟩
theorem witness_ReadBitsResultFits : ∃ t, readBits 9 mid = .value 258 t := ⟨_, rfl⟩
theorem witness_TableReadByIndex :
    255 ≤ 255 ∧ (256 = 256 ∨ 256 = 257) ∧ (258 ≤ 258 ∧ 258 < mid.tlen) ∧ mid.tlen ≤ 259 := by decide
theorem witness_ClearCodeResult :
    Instr.clrW9.cls = .clr ∧ Instr.clrW10.cls = .clr ∧ Instr.clrW11.cls = .clr ∧ Instr.clrW12.cls = .clr := by
  decide
theorem witness_EndCodeResult :
    Instr.endW9.cls = .endOfData ∧ Instr.endW10.cls = .endOfData ∧ Instr.endW11.cls = .endOfData ∧
      Instr.endW12.cls = .endOfData := by decide
theorem witness_FirstCodeResult : (started []).prev = [] ∧ (started []).EngineInv :=
  ⟨rfl, (started_inv _).engine⟩
theorem witness_FirstNotLiteralResult :
    (started []).prev = [] ∧ 258 ≤ (258 : BitVec 9).toNat ∧ 258 ≤ (511 : BitVec 9).toNat := by decide
/-- LIT with the greatest byte, and REF with the least index, which is also the greatest one here. -/
theorem witness_IndexCodeResult :
    mid.EngineInv ∧ mid.prev ≠ [] ∧ mid.tlen < 4096 ∧
    ((Instr.litW9 255).cls = .lit ∧ (Instr.litW9 255).code < mid.tlen ∧
      tabRead (Instr.litW9 255).code mid = some [255]) ∧
    ((Instr.refW9 258).cls = .ref ∧ 258 ≤ (Instr.refW9 258).code ∧ (Instr.refW9 258).code < mid.tlen ∧
      tabRead (Instr.refW9 258).code mid = some (0x2D :: [0x2D])) :=
  ⟨mid_inv.engine, by decide, by decide, by decide, by decide⟩
theorem witness_KwkCodeResult :
    ((Instr.kwkW9 259).cls = .kwk ∧ mid.prev = 0x2D :: [0x2D] ∧ (Instr.kwkW9 259).code = mid.tlen ∧
      mid.tlen < 4096) ∧
    ((Instr.kwkW12 4095).cls = .kwk ∧ (filled 3837 []).prev = 0x41 :: [] ∧
      (Instr.kwkW12 4095).code = (filled 3837 []).tlen ∧ (filled 3837 []).tlen < 4096) := by decide +kernel
theorem witness_BadRefResult :
    (Instr.badRefW9 260).cls = .badRef ∧ mid.prev ≠ [] ∧ mid.tlen < (Instr.badRefW9 260).code := by decide
theorem witness_TableFullResult :
    (filled 3838 []).EngineInv ∧ (filled 3838 []).prev ≠ [] ∧ (filled 3838 []).tlen = 4096 ∧
      (4095 : BitVec 12).toNat ≠ 256 ∧ (4095 : BitVec 12).toNat ≠ 257 :=
  ⟨filled_engineInv (by decide) _, by decide, by decide +kernel, by decide, by decide⟩
theorem witness_ExecRunsExactlySelectedRows :
    (Instr.refW9 258).cls.cond mid.ctx (Instr.refW9 258).code = true ∧
      (Instr.refW9 259).cls.cond mid.ctx (Instr.refW9 259).code = false := by decide
/-- A clearing, an ending, a first, an appending and an illegal instruction, each answering a next state. -/
theorem witness_InstructionFrame :
    Goes (exec .clrW9 mid) ∧ Goes (exec .endW9 mid) ∧ Goes (exec (.firstW9 65) (started [])) ∧
      (Goes (exec (.kwkW9 259) mid) ∧ Appends (Instr.kwkW9 259).cls) ∧
      (Goes (exec (.badRefW9 260) mid) ∧ Illegal (Instr.badRefW9 260).cls) :=
  ⟨⟨_, rfl⟩, ⟨_, rfl⟩, ⟨_, rfl⟩, ⟨⟨_, rfl⟩, .inr (.inr rfl)⟩, ⟨_, rfl⟩, .inr (.inl rfl)⟩
/-- The three thresholds, and an append between them. -/
theorem witness_WidthChangesAtThresholds :
    mid.EngineInv ∧ Goes (exec (.litW9 65) mid) ∧
    ((filled 252 []).EngineInv ∧ (filled 252 []).tlen + 1 = 511 ∧ Goes (exec (.litW9 65) (filled 252 []))) ∧
    ((filled 764 []).EngineInv ∧ (filled 764 []).tlen + 1 = 1023 ∧ Goes (exec (.litW10 65) (filled 764 []))) ∧
    ((filled 1788 []).EngineInv ∧ (filled 1788 []).tlen + 1 = 2047 ∧ Goes (exec (.litW11 65) (filled 1788 []))) := by
  have lit (n : Nat) (h : 258 + n < 4096) (f : Byte → Instr) (hf : ∀ s, exec (f 65) s = litCode 65 s) :
      Goes (exec (f 65) (filled n [])) :=
    ⟨_, (hf _).trans (whenSelected_eq_next.2 ⟨by
      simp [CodeClass.cond, State.ctx, filled_tlen, h]; simp [filled], rfl⟩)⟩
  exact ⟨mid_inv.engine, ⟨_, rfl⟩,
    ⟨filled_engineInv (by decide) _, by rw [filled_tlen], lit 252 (by decide) .litW9 fun _ => rfl⟩,
    ⟨filled_engineInv (by decide) _, by rw [filled_tlen], lit 764 (by decide) .litW10 fun _ => rfl⟩,
    filled_engineInv (by decide) _, by rw [filled_tlen], lit 1788 (by decide) .litW11 fun _ => rfl⟩
theorem witness_ClearForgetsTheTable :
    Instr.clrW9.cls = .clr ∧ Instr.clrW10.cls = .clr ∧
      eraseEngine mid = eraseEngine { mid with tab := [], prev := [0x41], width := .w10, hasTrace := true } :=
  ⟨rfl, rfl, rfl⟩
theorem witness_KwkRunReachesTheLengthBound :
    3838 ≤ 3838 ∧ (filled 0 []).tab = [] ∧ (filled 0 []).prev = [0x41] ∧ (filled 0 []).width = .w9 := by decide
theorem witness_StepRunsTheDecodedInstruction :
    mid.ReaderInv ∧ mid.status = .run ∧
      ∃ rest, decodeBits mid.ctx ((bitsOfBytes mid.input).drop mid.cursor) = .ok (.refW9 258, rest) :=
  ⟨mid_inv.reader, rfl, _, rfl⟩
theorem witness_StepIsThePseudocode : mid.Inv ∧ mid.status = .run := ⟨mid_inv, rfl⟩
theorem witness_FeedOutsideRangeRefused : ∃ t, readBits Format.w9.bits mid = .value 258 t := ⟨_, rfl⟩
/-- Exhausted in mid-code, one bit short, and at a code boundary. -/
theorem witness_ExhaustedInputEndsGracefully :
    ((started [0x80]).ReaderInv ∧ (started [0x80]).status = .run ∧ ¬ codeLeft (started [0x80])) ∧
    ((started []).ReaderInv ∧ (started []).status = .run ∧ ¬ codeLeft (started [])) :=
  ⟨⟨(started_inv _).reader, rfl, by unfold codeLeft; decide⟩, (started_inv _).reader, rfl,
    by unfold codeLeft; decide⟩
/-- One stream for each of the three illegal conditions, at the least illegal value, and a legal step. -/
theorem witness_CorruptExactlyOnIllegalCodes :
    (mid.Inv ∧ mid.status = .run ∧ Goes (step mid)) ∧
    ((started [0x81, 0x00]).Inv ∧ after (step (started [0x81, 0x00])) (·.status == .errCorrupt) = true) ∧
    ((filled 1 [0x82, 0x00]).Inv ∧ after (step (filled 1 [0x82, 0x00])) (·.cause == .badRef) = true) ∧
    ((filled 3838 [0x04, 0x40]).Inv ∧
      after (step (filled 3838 [0x04, 0x40])) (·.cause == .tableFull) = true) :=
  ⟨⟨mid_inv, rfl, _, rfl⟩, ⟨started_inv _, by decide +kernel⟩, ⟨filled_inv (by decide) _, by decide +kernel⟩,
    filled_inv (by decide) _, by decide +kernel⟩
theorem witness_DoneEndExactlyOnEndCode :
    (started [0x80, 0x80]).Inv ∧ (started [0x80, 0x80]).status = .run ∧
      after (step (started [0x80, 0x80])) (·.status == .doneEnd) = true :=
  ⟨started_inv _, rfl, by decide +kernel⟩
theorem witness_StepAdvancesByTheOldWidth : mid.Inv ∧ after (step mid) (·.status == .run) = true :=
  ⟨mid_inv, by decide +kernel⟩
theorem witness_TerminalStatesAreAbsorbing : ({ mid with status := .doneEos } : State).status ≠ .run := by decide
theorem witness_RunningStepAlwaysGoes : mid.Inv ∧ mid.status = .run := ⟨mid_inv, rfl⟩
/-- A step with a chunk, and one that reads a CLEAR. -/
theorem witness_OutputOnlyGrows :
    (mid.Inv ∧ Goes (step mid)) ∧ ((started [0x80, 0x00]).Inv ∧ Goes (step (started [0x80, 0x00]))) :=
  ⟨⟨mid_inv, _, rfl⟩, started_inv _, _, rfl⟩
/-- A step that appends, one that clears and one that does neither. -/
theorem witness_EntriesImmutableWithinACycle :
    (mid.Inv ∧ after (step mid) (fun t => t.tlen == 260) = true) ∧
    ((filled 1 [0x80, 0x00]).Inv ∧ after (step (filled 1 [0x80, 0x00])) (fun t => t.tlen == 258) = true) ∧
    ((started [0x00, 0x00]).Inv ∧ after (step (started [0x00, 0x00])) (fun t => t.prev == [0]) = true) :=
  ⟨⟨mid_inv, by decide +kernel⟩, ⟨filled_inv (by decide) _, by decide +kernel⟩, started_inv _, by decide +kernel⟩
theorem witness_StepKeepsInvariant : mid.Inv ∧ Goes (step mid) := ⟨mid_inv, _, rfl⟩
theorem witness_StepKeepsTableLinked : mid.Inv ∧ mid.Linked ∧ Goes (step mid) := ⟨mid_inv, mid_linked, _, rfl⟩
/-- Each width at the greatest table length it is used with. -/
theorem witness_WidthAddressesTheTable :
    (filled 252 []).EngineInv ∧ (filled 764 []).EngineInv ∧ (filled 1788 []).EngineInv ∧
      (filled 3838 []).EngineInv :=
  ⟨filled_engineInv (by decide) _, filled_engineInv (by decide) _, filled_engineInv (by decide) _,
    filled_engineInv (by decide) _⟩
theorem witness_ResetFromAnyState : mid.hasTrace = (started [0x80]).hasTrace := rfl
theorem witness_ResetEngineIsClearedEngine : Instr.clrW12.cls = .clr := rfl
theorem witness_StatusSurfaceIsFaithful : (filled 3838 []).EngineInv := filled_engineInv (by decide) _
/-- A map that places one signal, so that each clause has a case, in the state with the greatest TLEN. -/
theorem witness_RegisterMapShowsStatus :
    (filled 3838 []).EngineInv ∧
      signalOnBus (fun sig => if sig = .tlen then some ⟨4, 16⟩ else none) .tlen (filled 3838 []) =
        some (⟨4, 16⟩, 4096) ∧
      signalOnBus (fun sig => if sig = .tlen then some ⟨4, 16⟩ else none) .ecode (filled 3838 []) = none :=
  ⟨filled_engineInv (by decide) _, by decide +kernel, rfl⟩
theorem witness_ObserverOnlyWatches :
    eraseObserver { mid with hasTrace := false } =
      eraseObserver { mid with hasTrace := true, trace := [⟨256, .w9, [], 258⟩] } := rfl
/-- With the observer: a completed step and a raising one; and without it. -/
theorem witness_ObserverRecordsCompletedSteps :
    (State.Inv { mid with hasTrace := true } ∧
      after (step { mid with hasTrace := true }) (fun t => t.status == .run && t.hasTrace) = true) ∧
    (State.Inv { started [0x81, 0x00] with hasTrace := true } ∧
      after (step { started [0x81, 0x00] with hasTrace := true }) (·.status == .errCorrupt) = true) ∧
    (State.Inv { mid with hasTrace := false } ∧ Goes (step { mid with hasTrace := false })) :=
  have withBit {s : State} (h : s.Inv) (b : Bool) : State.Inv { s with hasTrace := b } :=
    ⟨⟨h.reader.bpos_le, h.reader.ipos_le, h.reader.nothing_pulled, h.reader.buf_is_last⟩,
      ⟨h.engine.table_wf, h.engine.width_forced, h.engine.first_cleared, h.engine.prev_le⟩,
      ⟨h.status.cause_iff, h.status.ecode_zero⟩⟩
  ⟨⟨withBit mid_inv true, by decide +kernel⟩, ⟨withBit (started_inv _) true, by decide +kernel⟩,
    withBit mid_inv false, _, rfl⟩
/-- The width in force, a wider format that the length names, and one that the value needs. -/
theorem witness_FetchWordIsReadNext :
    mid.ReaderInv ∧ 511 < 2 ^ (tableFormat mid.width 16 511).bits ∧
      300 < 2 ^ (tableFormat mid.width 12 300).bits ∧ 512 < 2 ^ (tableFormat mid.width 16 512).bits :=
  ⟨mid_inv.reader, by decide, by decide, by decide⟩
theorem witness_EveryDecodeTerminates :
    8 * [(0x80 : Byte)].length / 9 + 1 ≤ 1 ∧ (started []).hasTrace = State.reset.hasTrace ∧
      mid.Inv ∧ after (step mid) (·.status == .run) = true :=
  ⟨by decide, rfl, mid_inv, by decide +kernel⟩
theorem witness_DecodeIgnoresWhatFollowsTheEnd :
    (decodeStream [0x80, 0x80]).status = .doneEnd ∧ (decodeStream [0x81, 0x00]).status = .errCorrupt := by
  decide +kernel
theorem witness_PackedCodesAreReadBack :
    (∃ t, feedCodes [256, 45, 258, 257] (started (pack [256, 45, 258, 257])) = some t) ∧
      ∃ t, feedCodes [45, 260] (started (pack [45, 260])) = some t :=
  ⟨⟨_, rfl⟩, _, rfl⟩

end Sys2Proof.Tests
end

section
/-! SUPPORT. The status surface shows the state elements exactly: the 4-bit and 13-bit signals of D10 hold every width
and every table length that occurs between steps. -/

namespace Sys2Proof.Proofs

open Sys2Proof Sys2Proof.Machine Sys2Proof.Claims

/-- `TLEN` is at most `MAX_TLEN` between steps (R18). -/
theorem tlen_le_of_engineInv {s : State} (h : s.EngineInv) : s.tlen ≤ 4096 :=
  ((memory_wf_iff s).1 h.table_wf).1

/-- The 4-bit `WIDTH` signal cuts nothing off. -/
@[simp] theorem statusPorts_width_toNat (s : State) : (statusPorts s).width.toNat = s.width.bits := by
  simp only [statusPorts]
  cases s.width <;> rfl

/-- The 13-bit `TLEN` signal cuts nothing off between steps: 4096 is below 2^13. -/
theorem statusPorts_tlen_toNat {s : State} (h : s.EngineInv) : (statusPorts s).tlen.toNat = s.tlen := by
  have hle := tlen_le_of_engineInv h
  simp only [statusPorts, BitVec.toNat_ofNat]
  exact Nat.mod_eq_of_lt (by omega)

/-- Every signal shows the number in its state element (R23, R87). -/
theorem signal_toNat_eq_elementValue {s : State} (h : s.EngineInv) (sig : StatusSignal) :
    ((statusPorts s).signal sig).toNat = elementValue s sig := by
  cases sig with
  | status => rfl
  | cause => rfl
  | ecode => rfl
  | width => exact statusPorts_width_toNat s
  | tlen => exact statusPorts_tlen_toNat h

/-- Settles O56: the map alone fixes the place, and the value there is the signal's, which is its state element's. -/
theorem registerMapShowsStatus : Obligations.RegisterMapShowsStatus := by
  intro regMap s hinv
  refine ⟨fun sig => signalOnBus_eq_none, fun sig => rfl, fun sig place value hbus => ?_⟩
  obtain ⟨hplace, rfl⟩ := signalOnBus_eq_some.1 hbus
  exact ⟨hplace, signal_toNat_eq_elementValue hinv sig⟩

end Sys2Proof.Proofs
end

section
/-! SUPPORT. The stream law of R59 for the loop of `read_bits`: whatever it answers, it has taken the next bits of the
input in order, or it has met the end. -/

namespace Sys2Proof.Proofs

open Sys2Proof Sys2Proof.Machine Sys2Proof.Claims

/-! ## Fields of the stream -/

/-- A field is its first part above its second. -/
theorem streamField_add (bytes : ByteString) (k m n : Nat) :
    streamField bytes k (m + n) = streamField bytes k m * 2 ^ n + streamField bytes (k + m) n := by
  unfold streamField
  rw [Finset.sum_range_add, Finset.sum_mul]
  refine congrArg₂ (· + ·) (Finset.sum_congr rfl fun j hj => ?_) (Finset.sum_congr rfl fun j hj => ?_)
  · have hj : j < m := Finset.mem_range.1 hj
    rw [mul_assoc, ← pow_add, show m - 1 - j + n = m + n - 1 - j by omega]
  · rw [Nat.add_assoc, show m + n - 1 - (m + j) = n - 1 - j by omega]

@[simp] theorem streamField_zero (bytes : ByteString) (k : Nat) : streamField bytes k 0 = 0 := rfl

@[simp] theorem streamField_one (bytes : ByteString) (k : Nat) :
    streamField bytes k 1 = (streamBit bytes k).toNat := by
  simp [streamField]

/-- A field inside byte `i`, from its bit `p` in stream order on. -/
theorem streamField_of_byte {bytes : ByteString} {i p m : Nat} {b : Byte} (hb : bytes[i]? = some b)
    (h : p + m ≤ 8) : streamField bytes (8 * i + p) m = b.toNat / 2 ^ (8 - p - m) % 2 ^ m := by
  induction m with
  | zero => simp [Nat.mod_one]
  | succ m ih =>
    have hbit : streamBit bytes (8 * i + p + m) = b.toNat.testBit (8 - p - (m + 1)) := by
      simp only [streamBit, show (8 * i + p + m) / 8 = i by omega, hb, Option.getD_some, ← BitVec.testBit_toNat,
        show 7 - (8 * i + p + m) % 8 = 8 - p - (m + 1) by omega]
    have hhalf : b.toNat / 2 ^ (8 - p - m) = b.toNat / 2 ^ (8 - p - (m + 1)) / 2 := by
      rw [Nat.div_div_eq_div_mul, ← pow_succ, show 8 - p - (m + 1) + 1 = 8 - p - m by omega]
    rw [streamField_add, ih (by omega), streamField_one, hbit, Nat.toNat_testBit, hhalf, pow_succ 2 m,
      Nat.mul_comm (2 ^ m) 2, Nat.mod_mul]
    omega

/-! ## Passes of the loop -/

/-- What a pass makes of the result (R53, R54): `m` more bits below those it has. -/
theorem shiftLeft_or_and_mask (v x m : Nat) : (v <<< m) ||| (x &&& (2 ^ m - 1)) = v * 2 ^ m + x % 2 ^ m := by
  rw [Nat.and_two_pow_sub_one_eq_mod, ← Nat.shiftLeft_add_eq_or_of_lt (Nat.mod_lt _ (by positivity)),
    Nat.shiftLeft_eq]

/-- The bits a pass takes from `BUF` are the stream's at the cursor. -/
theorem streamField_of_buf {s : State} (h : s.ReaderInv) {m : Nat} (hm : m ≤ 8 - s.bpos) :
    streamField s.input s.cursor m = s.buf.toNat / 2 ^ (8 - s.bpos - m) % 2 ^ m := by
  obtain ⟨hbpos, -, hfresh, hlast⟩ := h
  rcases Nat.eq_zero_or_pos s.ipos with hi | hi
  · obtain rfl : m = 0 := by have := hfresh hi; omega
    simp [Nat.mod_one]
  · have hcursor : s.cursor = 8 * (s.ipos - 1) + s.bpos := by simp only [State.cursor]; omega
    rw [hcursor, streamField_of_byte (hlast hi) (by omega)]

/-- A finishing pass keeps the reader's invariant. -/
theorem readerInv_setBpos {s : State} (h : s.ReaderInv) {v : Nat} (hv : v ≤ 8) (hfresh : s.ipos = 0 → v = 8) :
    (setBpos v s).ReaderInv :=
  ⟨hv, h.ipos_le, hfresh, h.buf_is_last⟩

/-- A pull keeps the reader's invariant. -/
theorem readerInv_takeByte {s : State} {b : Byte} (hb : s.input[s.ipos]? = some b) : (takeByte b s).ReaderInv := by
  obtain ⟨hlt, -⟩ := List.getElem?_eq_some_iff.1 hb
  exact ⟨by simp, by simpa using hlt, by simp, fun _ => by simpa using hb⟩

/-! ## The law -/

/-- The state `t` after the next `m` stream bits of `s` have been taken (R59); at least one bit of the byte in `BUF`
is consumed. -/
structure BitsTaken (m : Nat) (s t : State) : Prop where
  enough : s.cursor + m ≤ 8 * s.inputLength
  cursor : t.cursor = s.cursor + m
  reader : t.ReaderInv
  bpos_pos : 0 < t.bpos

/-- The state `t` after `s` has met the end of the stream in a read of `m` bits (R55). -/
structure StreamEnded (m : Nat) (s t : State) : Prop where
  short : 8 * s.inputLength < s.cursor + m
  ipos : t.ipos = s.inputLength
  bpos : t.bpos = 8
  reader : t.ReaderInv

/-- R59 of a read of `m` bits from `s` with `v` accumulated. -/
def StreamLaw (m v : Nat) (s : State) : ReadOutcome → Prop
  | .value x t => x = v * 2 ^ m + streamField s.input s.cursor m ∧ BitsTaken m s t
  | .endOfStream t => StreamEnded m s t
  | .notAForm => False

/-- A finishing pass follows the law (R53). -/
theorem streamLaw_finish {s : State} (h : s.ReaderInv) {m : Nat} (hm : 0 < m) (hfin : m ≤ 8 - s.bpos) (v : Nat)
    (rest : ByteString) : StreamLaw m v s (readLoop rest m v s) := by
  have hbpos := h.bpos_le
  have hipos := h.ipos_le
  have hfresh := h.nothing_pulled
  rw [readLoop_finish hfin, shiftLeft_or_and_mask, Nat.shiftRight_eq_div_pow, ← streamField_of_buf h hfin]
  have hpulled : s.ipos ≠ 0 := fun hi => by have := hfresh hi; omega
  exact ⟨rfl, by simp only [State.cursor, State.inputLength]; omega, by simp [State.cursor]; omega,
    readerInv_setBpos h (by omega) (fun hi => absurd hi hpulled), by simp; omega⟩

/-- The cursor after a continuing pass stands at the byte just pulled. -/
theorem cursor_takeByte {s : State} (h : s.ReaderInv) (b : Byte) :
    (takeByte b s).cursor = s.cursor + (8 - s.bpos) := by
  obtain ⟨hbpos, -, hfresh, -⟩ := h
  simp only [State.cursor, takeByte_ipos, takeByte_bpos]
  omega

/-- A continuing pass takes the rest of `BUF`, so the law for the bits after them is the law for all (R54). -/
theorem streamLaw_continue {s : State} (h : s.ReaderInv) {m : Nat} (hm : 8 - s.bpos < m) {v : Nat} {b : Byte}
    {o : ReadOutcome}
    (hlaw : StreamLaw (m - (8 - s.bpos)) ((v <<< (8 - s.bpos)) ||| (s.buf.toNat &&& (2 ^ (8 - s.bpos) - 1)))
      (takeByte b s) o) : StreamLaw m v s o := by
  obtain ⟨n, rfl⟩ : ∃ n, m = 8 - s.bpos + n := ⟨m - (8 - s.bpos), by omega⟩
  have hbuf : streamField s.input s.cursor (8 - s.bpos) = s.buf.toNat % 2 ^ (8 - s.bpos) := by
    simpa using streamField_of_buf h le_rfl
  have hcursor := cursor_takeByte h b
  rw [shiftLeft_or_and_mask, ← hbuf, Nat.add_sub_cancel_left] at hlaw
  cases o with
  | value x t =>
    obtain ⟨hx, henough, hcur, hreader, hpos⟩ := hlaw
    simp only [hcursor, State.inputLength, takeByte_input] at hx henough hcur
    exact ⟨by rw [hx, streamField_add]; ring, by simp only [State.inputLength]; omega, by omega, hreader, hpos⟩
  | endOfStream t =>
    obtain ⟨hshort, hipos, hbpos, hreader⟩ := hlaw
    simp only [hcursor, State.inputLength, takeByte_input] at hshort hipos
    exact ⟨by simp only [State.inputLength]; omega, hipos, hbpos, hreader⟩
  | notAForm => exact hlaw

/-- The loop follows the stream law (R59, from R53 to R55). -/
theorem readLoop_streamLaw {s : State} (h : s.ReaderInv) {m : Nat} (hm : 0 < m) (v : Nat) :
    StreamLaw m v s (readLoop (unread s) m v s) := by
  induction hrest : unread s generalizing s m v with
  | nil =>
    by_cases hfin : m ≤ 8 - s.bpos
    · exact streamLaw_finish h hm hfin v []
    · rw [readLoop_exhausted hfin]
      have hall : s.ipos = s.inputLength := le_antisymm h.ipos_le (List.drop_eq_nil_iff.1 hrest)
      have hbpos := h.bpos_le
      exact ⟨by simp only [State.cursor]; omega, hall, rfl, readerInv_setBpos h le_rfl fun _ => rfl⟩
  | cons b rest ih =>
    by_cases hfin : m ≤ 8 - s.bpos
    · exact streamLaw_finish h hm hfin v (b :: rest)
    · obtain ⟨c, hget, hpull, hunread⟩ := inPull_cases (s := s) (t := takeByte b s) (by simp [inPull, hrest])
      obtain ⟨rfl, hrest'⟩ := List.cons.inj (hrest.symm.trans hunread)
      rw [readLoop_continue hfin]
      exact streamLaw_continue h (by omega) (ih (readerInv_takeByte hget) (by omega) _ hrest'.symm)

/-- Every form of `read_bits` follows the stream law, with nothing accumulated before it (R58, R59). -/
theorem readBits_streamLaw {s : State} (h : s.ReaderInv) {n : Nat} (hn : 1 ≤ n) (hn' : n ≤ 32) :
    StreamLaw n 0 s (readBits n s) := by
  simpa [readBits, hn, hn'] using readLoop_streamLaw h hn 0

/-- The code widths (R41). -/
theorem bits_bounds (f : Format) : 9 ≤ f.bits ∧ f.bits ≤ 12 := by cases f <;> decide

/-- A code is read at a width that is a form of the operation, so its read follows the stream law (R42). -/
theorem readBits_width_streamLaw {s : State} (h : s.ReaderInv) (f : Format) :
    StreamLaw f.bits 0 s (readBits f.bits s) := by
  obtain ⟨hlo, hhi⟩ := bits_bounds f
  exact readBits_streamLaw h (by omega) (by omega)

end Sys2Proof.Proofs
end

section
/-! SUPPORT. What a step can do, in terms of the stream and the engine alone: the code it reads is the next field of the
stream, and the state it leaves is one of five effects. -/

namespace Sys2Proof.Proofs

open Sys2Proof Sys2Proof.Machine Sys2Proof.Claims

/-! ## The decoded instruction has the code that was read -/

/-- The class of a code holds of it, as far as the two byte classes and the control codes go (R44). -/
theorem classify_value (ctx : DecodeCtx) (c : Nat) :
    (classify ctx c = .clr → c = 256) ∧ (classify ctx c = .endOfData → c = 257) ∧
      (classify ctx c = .first ∨ classify ctx c = .lit → c < 256) := by
  simp only [classify, Config.clearValue, Config.endValue, Config.firstDyn, Config.maxTlen]
  split_ifs <;> simp <;> omega

/-- A row's instruction has the code it was made from, when that fits the row's operand. -/
theorem rowInstr_code {f : Format} {k : CodeClass} {c : Nat} {i : Instr} (h : rowInstr f k c = some i)
    (hclr : k = .clr → c = 256) (hend : k = .endOfData → c = 257) (hbyte : k = .first ∨ k = .lit → c < 256)
    (hfits : c < 2 ^ f.bits) : i.code = c := by
  cases k
  case clr => cases f <;> cases h <;> exact (hclr rfl).symm
  case endOfData => cases f <;> cases h <;> exact (hend rfl).symm
  case first =>
    cases f <;> cases h
    exact Nat.mod_eq_of_lt (hbyte (.inl rfl))
  case lit => cases f <;> cases h <;> exact Nat.mod_eq_of_lt (hbyte (.inr rfl))
  all_goals cases f <;> cases h <;> exact Nat.mod_eq_of_lt hfits

/-- Decoding keeps the code (R41: opcode and operand at once). -/
theorem code_of_decodeCode {ctx : DecodeCtx} {c : Nat} {i : Instr} (h : decodeCode ctx c = .ok i) : i.code = c := by
  unfold decodeCode at h
  split at h
  · cases h
  · rename_i hfits
    split at h
    · rename_i j hrow
      obtain rfl : j = i := by simpa using h
      obtain ⟨hclr, hend, hbyte⟩ := classify_value ctx c
      exact rowInstr_code hrow hclr hend hbyte (by omega)
    · cases h

/-! ## The five effects of a code -/

/-- When a code raises `CorruptStream` with a cause (R64, R67, R69). -/
def RaisedBy (s : State) (c : Nat) : Cause → Prop
  | .noCause => False
  | .firstNotLiteral => s.prev = [] ∧ 258 ≤ c
  | .badRef => s.prev ≠ [] ∧ s.tlen < c
  | .tableFull => s.prev ≠ [] ∧ c ≤ s.tlen ∧ s.tlen = 4096 ∧ c ≠ 256 ∧ c ≠ 257

/-- The chunk `x` of an appending code `c`: the entry of index `c` (R65), or for the next index the KwKwK string
(R66). -/
def ChunkOf (s : State) (c : Nat) (x : ByteString) : Prop :=
  tabRead c s = some x ∨ c = s.tlen ∧ x = kwkString s

/-- What a code does to the state in which it has just been read, guards included (R61 to R69). The codes that append
do one thing, whichever string their chunk is. -/
inductive CodeEffect (s : State) (c : Nat) : State → Prop
  | clear (hc : c = 256) : CodeEffect s c (completeCode s.width c [] (clearEngine s))
  | endOfData (hc : c = 257) : CodeEffect s c (setStatus .doneEnd (completeCode s.width c [] s))
  | first (b : Byte) (hc : c = b.toNat) (hprev : s.prev = []) :
      CodeEffect s c (completeCode s.width c (literalEntry b) (setPrev (literalEntry b) s))
  | corrupt (cause : Cause) (hraised : RaisedBy s c cause) : CodeEffect s c (raiseCorrupt cause c s)
  | append (x : ByteString) (hx : ChunkOf s c x) (hprev : s.prev ≠ []) (hroom : s.tlen < 4096) (hc : c ≤ s.tlen)
      (hclr : c ≠ 256) (hend : c ≠ 257) : CodeEffect s c (indexCode c x s)

/-- The KwKwK code appends what `IDX` appends for the KwKwK string: both extend `PREV` by its first byte. -/
theorem extend_kwkString {s : State} (h : s.prev ≠ []) : extend s.prev (kwkString s) = kwkString s := by
  obtain ⟨b, rest, hprev⟩ := List.exists_cons_of_ne_nil h
  simp [kwkString, extend, hprev]

/-- The context's flag is the emptiness of `PREV` (R22). -/
@[simp] theorem ctx_prevEmpty (s : State) : s.ctx.prevEmpty = s.prev.isEmpty := rfl

@[simp] theorem ctx_tlen (s : State) : s.ctx.tlen = s.tlen := rfl

/-- An instruction that runs has one of the five effects. -/
theorem codeEffect_of_exec {i : Instr} {s t : State} (h : exec i s = .next t) : CodeEffect s i.code t := by
  obtain ⟨hcond, x, hentry, rfl⟩ := exec_cases h
  generalize i.code = c at *
  cases hk : i.cls <;>
    simp only [hk, CodeClass.cond, ctx_prevEmpty, ctx_tlen, decide_eq_true_eq, List.isEmpty_iff,
      List.isEmpty_eq_false_iff, Config.clearValue, Config.endValue, Config.firstDyn, Config.maxTlen] at hcond
  case clr => subst hcond; exact .clear rfl
  case endOfData => subst hcond; exact .endOfData rfl
  case first =>
    obtain ⟨hprev, hle⟩ := hcond
    exact .first _ (by simp; omega) hprev
  case firstNotLiteral => exact .corrupt .firstNotLiteral hcond
  case badRef => exact .corrupt .badRef hcond
  case tableFull => exact .corrupt .tableFull hcond
  case lit =>
    obtain ⟨hprev, hle, hroom⟩ := hcond
    exact .append x (.inl (hentry (.inl hk))) hprev hroom (by simp [State.tlen]; omega) (by omega) (by omega)
  case ref =>
    obtain ⟨hprev, hle, hlt, hroom⟩ := hcond
    exact .append x (.inl (hentry (.inr hk))) hprev hroom (by omega) (by omega) (by omega)
  case kwk =>
    obtain ⟨hprev, rfl, hroom⟩ := hcond
    have htlen : 258 ≤ s.tlen := by simp [State.tlen]
    have heffect : indexCode s.tlen (kwkString s) s = classEffect .kwk s.tlen x s := by
      rw [indexCode, extend_kwkString hprev, classEffect]
    exact heffect ▸ .append _ (.inr ⟨rfl, rfl⟩) hprev hroom le_rfl (by omega) (by omega)

/-! ## The step -/

/-- If a step answers a next state, the run was going on, and either the stream ended within the code, or the code was
read from the stream and had its effect. -/
theorem step_effect {s t : State} (h : s.ReaderInv) (hstep : step s = .next t) :
    s.status = .run ∧ ∃ u, SameOutsideReader s u ∧
      (StreamEnded s.width.bits s u ∧ t = raiseEndOfStream u ∨
        BitsTaken s.width.bits s u ∧ CodeEffect u (nextCode s) t) := by
  have hlaw := readBits_width_streamLaw h s.width
  obtain ⟨hrun, ⟨u, hread, hsame, ht⟩ | ⟨c, u, i, hread, hsame, hdecode, hexec⟩⟩ := step_cases hstep
  · rw [hread] at hlaw
    exact ⟨hrun, u, hsame, .inl ⟨hlaw, ht⟩⟩
  · rw [hread] at hlaw
    obtain ⟨hc, htaken⟩ := hlaw
    have hcode : i.code = nextCode s := by rw [code_of_decodeCode hdecode, hc, nextCode]; simp
    exact ⟨hrun, u, hsame, .inr ⟨htaken, hcode ▸ codeEffect_of_exec hexec⟩⟩

end Sys2Proof.Proofs
end

section
/-! SUPPORT. The invariants between steps (10_state.md): they hold at reset, each effect of a code keeps them, and so
does a step. -/

namespace Sys2Proof.Proofs

open Sys2Proof Sys2Proof.Machine Sys2Proof.Claims

/-! ## Which fields each invariant depends on -/

theorem readerInv_congr {s t : State} (h : s.ReaderInv) (hinput : t.input = s.input) (hipos : t.ipos = s.ipos)
    (hbuf : t.buf = s.buf) (hbpos : t.bpos = s.bpos) : t.ReaderInv :=
  ⟨hbpos ▸ h.bpos_le, by rw [hipos, hinput]; exact h.ipos_le, by rw [hipos, hbpos]; exact h.nothing_pulled,
    by rw [hipos, hinput, hbuf]; exact h.buf_is_last⟩

theorem engineInv_congr {s t : State} (h : s.EngineInv) (htab : t.tab = s.tab) (hwidth : t.width = s.width)
    (hprev : t.prev = s.prev) : t.EngineInv := by
  have htlen : t.tlen = s.tlen := by simp only [State.tlen, htab]
  exact ⟨(memory_wf_congr htab).trans h.table_wf, by rw [hwidth, htlen, h.width_forced],
    by rw [hprev, htab]; exact h.first_cleared, by rw [hprev, htlen]; exact h.prev_le⟩

theorem statusInv_congr {s t : State} (h : s.StatusInv) (hstatus : t.status = s.status) (hcause : t.cause = s.cause)
    (hecode : t.ecode = s.ecode) : t.StatusInv :=
  ⟨by rw [hstatus, hcause]; exact h.cause_iff, by rw [hstatus, hecode]; exact h.ecode_zero⟩

/-- A status other than `ERR_CORRUPT` can take the place of another one. -/
theorem statusInv_setStatus {s : State} (h : s.StatusInv) (hold : s.status ≠ .errCorrupt) {v : Status}
    (hnew : v ≠ .errCorrupt) : (setStatus v s).StatusInv := by
  obtain ⟨hcause, hecode⟩ := h
  exact ⟨by simpa [hnew, hold] using hcause, fun _ => hecode hold⟩

/-- Reading touches the engine and the status surface not at all. -/
theorem inv_of_sameOutsideReader {s u : State} (hsame : SameOutsideReader s u) (hreader : u.ReaderInv)
    (h : s.Inv) : u.Inv := by
  rw [SameOutsideReader] at hsame
  exact ⟨hreader, engineInv_congr h.engine (by rw [hsame]) (by rw [hsame]) (by rw [hsame]),
    statusInv_congr h.status (by rw [hsame]) (by rw [hsame]) (by rw [hsame])⟩

/-! ## The engine -/

/-- A cleared engine (R61). -/
theorem engineInv_of_cleared {s : State} (htab : s.tab = []) (hwidth : s.width = .w9) (hprev : s.prev = []) :
    s.EngineInv := by
  refine ⟨(memory_wf_iff s).2 ⟨?_, ?_⟩, ?_, fun _ => htab, ?_⟩ <;> simp [State.tlen, htab, hwidth, hprev, widthOf]

/-- The first code leaves the table cleared and makes `PREV` one byte long (R63). -/
theorem engineInv_setPrev_literal {s : State} (h : s.EngineInv) (b : Byte) :
    (setPrev (literalEntry b) s).EngineInv :=
  ⟨h.table_wf, h.width_forced, by simp [literalEntry], by simp [literalEntry, State.tlen]⟩

/-- `WIDTH` follows an append (R68), and the bounds on the entry and on `PREV` are those of R71. -/
theorem engineInv_appendEntry {s : State} {e x : ByteString} (h : s.EngineInv) (hroom : s.tlen < 4096)
    (he : 2 ≤ e.length) (he' : e.length + 256 ≤ s.tlen) (hx : x ≠ []) (hx' : x.length + 256 ≤ s.tlen) :
    (appendEntry e x s).EngineInv :=
  ⟨memory_wf_appendEntry h.table_wf hroom he he', by simp, fun hnil => absurd hnil hx, by simp; omega⟩

/-- An entry that can be read is not empty, and short enough to be followed by one that is longer by a byte (R19c). -/
theorem tabRead_length {s : State} (h : s.EngineInv) {i : Nat} {x : ByteString} (hx : tabRead i s = some x) :
    1 ≤ x.length ∧ x.length + 257 ≤ s.tlen := by
  have htlen : s.tlen = 258 + s.tab.length := rfl
  by_cases hlit : i < 256
  · obtain rfl : literalEntry (BitVec.ofNat 8 i) = x := by simpa [tabRead, hlit] using hx
    simp only [literalEntry, List.length_singleton]
    omega
  · by_cases hdyn : 258 ≤ i
    · rw [tabRead_dynamic hdyn] at hx
      obtain ⟨hlt, -⟩ := List.getElem?_eq_some_iff.1 hx
      obtain ⟨-, hentries⟩ := (memory_wf_iff s).1 h.table_wf
      obtain ⟨hmin, hmax⟩ := hentries _ _ hx
      omega
    · simp [tabRead, hlit, show i < 258 by omega] at hx

/-- `PREV` extended by a byte. -/
theorem length_extend {p x : ByteString} (hx : x ≠ []) : (extend p x).length = p.length + 1 := by
  obtain ⟨b, rest, rfl⟩ := List.exists_cons_of_ne_nil hx
  simp [extend]

/-- The entry of an append is at least two bytes long and within R71's bound. -/
theorem length_extend_prev {s : State} (h : s.EngineInv) (hprev : s.prev ≠ []) {x : ByteString} (hx : x ≠ []) :
    2 ≤ (extend s.prev x).length ∧ (extend s.prev x).length + 256 ≤ s.tlen := by
  have hpos := List.length_pos_of_ne_nil hprev
  have hle : s.prev.length + 258 ≤ s.tlen + 1 := h.prev_le
  rw [length_extend hx]
  omega

/-- The chunk of an appending code is not empty, and within R71's bound. -/
theorem chunk_bounds {s : State} (h : s.EngineInv) (hprev : s.prev ≠ []) {c : Nat} {x : ByteString}
    (hx : ChunkOf s c x) : x ≠ [] ∧ x.length + 256 ≤ s.tlen := by
  rcases hx with hread | ⟨-, rfl⟩
  · obtain ⟨hpos, hle⟩ := tabRead_length h hread
    exact ⟨List.ne_nil_of_length_pos hpos, by omega⟩
  · obtain ⟨hpos, hle⟩ := length_extend_prev h hprev hprev
    exact ⟨List.ne_nil_of_length_pos (by rw [kwkString]; omega), hle⟩

/-! ## The effects and the step -/

/-- No code touches the reader. -/
theorem codeEffect_reader {s t : State} {c : Nat} (h : CodeEffect s c t) :
    t.input = s.input ∧ t.ipos = s.ipos ∧ t.buf = s.buf ∧ t.bpos = s.bpos ∧ t.hasTrace = s.hasTrace := by
  cases h <;> exact ⟨rfl, rfl, rfl, rfl, rfl⟩

theorem codeEffect_engineInv {s t : State} {c : Nat} (h : CodeEffect s c t) (hinv : s.EngineInv) : t.EngineInv := by
  cases h with
  | clear hc => exact engineInv_of_cleared rfl rfl rfl
  | endOfData hc => exact engineInv_congr hinv rfl rfl rfl
  | first b hc hprev => exact engineInv_congr (engineInv_setPrev_literal hinv b) rfl rfl rfl
  | corrupt cause hraised => exact engineInv_congr hinv rfl rfl rfl
  | append x hx hprev hroom hc hclr hend =>
    obtain ⟨hne, hlen⟩ := chunk_bounds hinv hprev hx
    obtain ⟨hmin, hmax⟩ := length_extend_prev hinv hprev hne
    exact engineInv_congr (engineInv_appendEntry hinv hroom hmin hmax hne hlen) rfl rfl rfl

theorem codeEffect_statusInv {s t : State} {c : Nat} (h : CodeEffect s c t) (hinv : s.StatusInv)
    (hrun : s.status = .run) : t.StatusInv := by
  cases h with
  | endOfData hc =>
    have hcomplete : (completeCode s.width c [] s).StatusInv := statusInv_congr hinv rfl rfl rfl
    exact statusInv_setStatus hcomplete (by simp [hrun]) (by decide)
  | corrupt cause hraised =>
    have hcause : cause ≠ .noCause := by rintro rfl; exact hraised
    exact ⟨by simp [hcause], by simp⟩
  | clear hc => exact statusInv_congr hinv rfl rfl rfl
  | first b hc hprev => exact statusInv_congr hinv rfl rfl rfl
  | append x hx hprev hroom hc hclr hend => exact statusInv_congr hinv rfl rfl rfl

/-- A code run in a running state between steps leaves a state between steps. -/
theorem codeEffect_inv {s t : State} {c : Nat} (h : CodeEffect s c t) (hinv : s.Inv) (hrun : s.status = .run) :
    t.Inv := by
  obtain ⟨hinput, hipos, hbuf, hbpos, -⟩ := codeEffect_reader h
  exact ⟨readerInv_congr hinv.reader hinput hipos hbuf hbpos, codeEffect_engineInv h hinv.engine,
    codeEffect_statusInv h hinv.status hrun⟩

/-- The graceful ending of an exhausted input leaves a state between steps (R76). -/
theorem inv_raiseEndOfStream {s : State} (h : s.Inv) (hrun : s.status = .run) : (raiseEndOfStream s).Inv :=
  ⟨readerInv_congr h.reader rfl rfl rfl rfl, engineInv_congr h.engine rfl rfl rfl,
    statusInv_setStatus h.status (by simp [hrun]) (by decide)⟩

/-- Settles O40: a read keeps the reader's part and each effect of a code the rest. -/
theorem stepKeepsInvariant : Obligations.StepKeepsInvariant := by
  intro s t hinv hstep
  obtain ⟨hrun, u, hsame, ⟨hended, rfl⟩ | ⟨htaken, heffect⟩⟩ := step_effect hinv.reader hstep
  · exact inv_raiseEndOfStream (inv_of_sameOutsideReader hsame hended.reader hinv) (hsame.status.trans hrun)
  · exact codeEffect_inv heffect (inv_of_sameOutsideReader hsame htaken.reader hinv) (hsame.status.trans hrun)

/-! ## Reset -/

/-- With no entry and no `PREV` there is nothing to link. -/
theorem linked_of_cleared {s : State} (htab : s.tab = []) (hprev : s.prev = []) : s.Linked :=
  ⟨fun k x hx => by simp [htab] at hx, fun hne => absurd hprev hne⟩

/-- A decode about to start is between steps, and nothing has been pulled (R95). -/
theorem inv_startDecode (bytes : ByteString) (s : State) : (startDecode bytes s).Inv :=
  ⟨⟨le_rfl, Nat.zero_le _, fun _ => rfl, by simp⟩, engineInv_of_cleared rfl rfl rfl, ⟨by simp, fun _ => rfl⟩⟩

/-- Settles O39: the reset state is itself that of a decode about to start, with no input. -/
theorem invariantsAtReset : Obligations.InvariantsAtReset :=
  ⟨inv_startDecode [] State.reset, linked_of_cleared rfl rfl,
    fun bytes s => ⟨inv_startDecode bytes s, linked_of_cleared rfl rfl⟩⟩

/-- No index from 256 up has an entry in a cleared table (R17, R18). -/
theorem tabRead_of_cleared {s : State} (htab : s.tab = []) {i : Nat} (hi : 256 ≤ i) : tabRead i s = none := by
  simp [tabRead, htab, show ¬ i < 256 by omega]

/-- Settles O43: each element of `State.reset` by definition, and the cleared table reads as R24 says. -/
theorem resetState : Obligations.ResetState :=
  ⟨rfl, rfl, rfl, rfl, rfl, fun _ hi => tabRead_of_cleared rfl hi, rfl, rfl, rfl, rfl, rfl⟩

/-! ## The width and the table length -/

/-- Every index below a format's greatest table length can be written in its bits (R42). -/
theorem maxTlen_le_two_pow_bits (f : Format) : f.maxTlen ≤ 2 ^ f.bits := by cases f <;> decide

/-- Settles O42: the width is the one the table length forces, so the length is in the width's range of R42. -/
theorem widthAddressesTheTable : Obligations.WidthAddressesTheTable := by
  intro s h
  have hmin : 258 ≤ s.tlen := by simp [State.tlen]
  have hmax := tlen_le_of_engineInv h
  obtain ⟨-, hrange⟩ := (widthOf_eq_iff s.width s.tlen hmin hmax).1 h.width_forced.symm
  refine ⟨hmin, hrange.trans (maxTlen_le_two_pow_bits s.width), ?_⟩
  generalize s.width = f at hrange ⊢
  cases f <;> exact hrange

end Sys2Proof.Proofs
end

section
/-! SUPPORT. What a step leaves of the stream, the output and the table (10_state.md R11, R18, R21): the statements follow
from the five effects of a code. -/

namespace Sys2Proof.Proofs

open Sys2Proof Sys2Proof.Machine Sys2Proof.Claims

/-! ## The cursor -/

/-- The cursor depends on the reader alone. -/
theorem cursor_congr {s t : State} (hipos : t.ipos = s.ipos) (hbpos : t.bpos = s.bpos) : t.cursor = s.cursor := by
  simp only [State.cursor, hipos, hbpos]

/-- With a bit of `BUF` consumed, `IPOS` counts the bytes up to the one with the last bit read (R30). -/
theorem ipos_eq_ceil_cursor {s : State} (h : s.ReaderInv) (hpos : 0 < s.bpos) : s.ipos = (s.cursor + 7) / 8 := by
  have hbpos := h.bpos_le
  have hfresh := h.nothing_pulled
  simp only [State.cursor]
  omega

/-- A read of a code pulls one or two bytes (R54). -/
theorem ipos_of_bitsTaken {s u : State} (h : s.ReaderInv) (htaken : BitsTaken s.width.bits s u) :
    u.ipos = s.ipos + 1 ∨ u.ipos = s.ipos + 2 := by
  have hceil := ipos_eq_ceil_cursor htaken.reader htaken.bpos_pos
  have hbits := bits_bounds s.width
  have hbpos := h.bpos_le
  have hfresh := h.nothing_pulled
  rw [htaken.cursor, State.cursor] at hceil
  omega

/-- Settles O34: the read moves the cursor by the width it is made at, and no effect of the code moves it again. -/
theorem stepAdvancesByTheOldWidth : Obligations.StepAdvancesByTheOldWidth := by
  intro s t hinv hstep hstatus
  obtain ⟨-, u, hsame, ⟨-, rfl⟩ | ⟨htaken, heffect⟩⟩ := step_effect hinv.reader hstep
  · exact absurd rfl hstatus
  · obtain ⟨hinput, hipos, -, hbpos, htrace⟩ := codeEffect_reader heffect
    have hcursor := cursor_congr hipos hbpos
    rw [hcursor, hipos, hinput, htrace]
    exact ⟨htaken.cursor, ipos_eq_ceil_cursor htaken.reader htaken.bpos_pos, ipos_of_bitsTaken hinv.reader htaken,
      hsame.input, by rw [hsame]⟩

/-! ## The output -/

/-- What a code adds to the output: nothing exactly when it ends the run or is CLEAR, and never more than R71's
bound. -/
theorem codeEffect_out {s t : State} {c : Nat} (h : CodeEffect s c t) (hinv : s.EngineInv) (hrun : s.status = .run) :
    ∃ x, t.out = s.out ++ x ∧ x.length ≤ 3839 ∧ (x = [] ↔ t.status ≠ .run ∨ c = 256) := by
  cases h with
  | clear hc => exact ⟨[], rfl, by simp, by simp [hc]⟩
  | endOfData hc => exact ⟨[], rfl, by simp, by simp⟩
  | corrupt cause hraised => exact ⟨[], by simp, by simp, by simp⟩
  | first b hc hprev =>
    have hlit : c ≠ 256 := by have := b.isLt; omega
    exact ⟨literalEntry b, rfl, by simp [literalEntry], by simp [literalEntry, hrun, hlit]⟩
  | append x hx hprev hroom hc hclr hend =>
    obtain ⟨hne, hlen⟩ := chunk_bounds hinv hprev hx
    have hstatus : (indexCode c x s).status = .run := hrun
    exact ⟨x, rfl, by omega, by simp [hne, hstatus, hclr]⟩

/-- Settles O37: a step that reads no code adds nothing and ends the run; one that reads a code adds its chunk. -/
theorem outputOnlyGrows : Obligations.OutputOnlyGrows := by
  intro s t hinv hstep
  obtain ⟨hrun, u, hsame, ⟨-, rfl⟩ | ⟨htaken, heffect⟩⟩ := step_effect hinv.reader hstep
  · exact ⟨[], by rw [hsame]; simp, by simp, by simp⟩
  · have hu := inv_of_sameOutsideReader hsame htaken.reader hinv
    obtain ⟨x, hout, hlen, hempty⟩ := codeEffect_out heffect hu.engine (hsame.status.trans hrun)
    have hleft : codeLeft s := htaken.enough
    exact ⟨x, by rw [hout, hsame], hlen, by simp [hempty, hleft]⟩

/-! ## The table -/

/-- What a code does to the table: keep it, append one entry of length at least 2 while there is room, or, for CLEAR
alone, empty it. -/
theorem codeEffect_tab {s t : State} {c : Nat} (h : CodeEffect s c t) (hinv : s.EngineInv) :
    t.tab = s.tab ∨ (s.tlen < 4096 ∧ ∃ e : ByteString, t.tab = s.tab ++ [e] ∧ 2 ≤ e.length) ∨
      (t.tab = [] ∧ c = 256) := by
  cases h with
  | clear hc => exact .inr (.inr ⟨rfl, hc⟩)
  | endOfData hc => exact .inl rfl
  | first b hc hprev => exact .inl rfl
  | corrupt cause hraised => exact .inl rfl
  | append x hx hprev hroom hc hclr hend =>
    obtain ⟨hne, -⟩ := chunk_bounds hinv hprev hx
    obtain ⟨hmin, -⟩ := length_extend_prev hinv hprev hne
    exact .inr (.inl ⟨hroom, extend s.prev x, rfl, hmin⟩)

/-- `TLEN` after an append (R34). -/
theorem tlen_of_tab_append {s t : State} {e : ByteString} (h : t.tab = s.tab ++ [e]) : t.tlen = s.tlen + 1 := by
  simp [State.tlen, h, Nat.add_assoc]

/-- The index that was `TLEN` reads the appended entry (R34). -/
theorem tabRead_tlen_of_tab_append {s t : State} {e : ByteString} (h : t.tab = s.tab ++ [e]) :
    tabRead s.tlen t = some e := by
  rw [tabRead_dynamic (by simp [State.tlen])]
  simp [State.tlen, h]

/-- Every other index reads as before an append (R34). -/
theorem tabRead_ne_of_tab_append {s t : State} {e : ByteString} (h : t.tab = s.tab ++ [e]) {i : Nat}
    (hi : i ≠ s.tlen) : tabRead i t = tabRead i s := by
  by_cases hdyn : 258 ≤ i
  · have hne : i - 258 ≠ s.tab.length := by simp only [State.tlen, Config.firstDyn] at hi; omega
    rw [tabRead_dynamic hdyn, tabRead_dynamic hdyn, h, List.getElem?_append]
    split
    · rfl
    · rw [List.getElem?_eq_none (by simp; omega), List.getElem?_eq_none (by omega)]
  · simp [tabRead, show i < 258 by omega]

/-- Settles O38: a read leaves the table alone, and the effect of the code does one of three things to it. -/
theorem entriesImmutableWithinACycle : Obligations.EntriesImmutableWithinACycle := by
  intro s t hinv hstep
  obtain ⟨-, u, hsame, ⟨-, rfl⟩ | ⟨htaken, heffect⟩⟩ := step_effect hinv.reader hstep
  · exact .inl (by rw [hsame]; rfl)
  · have hu := inv_of_sameOutsideReader hsame htaken.reader hinv
    have htab : u.tab = s.tab := by rw [hsame]
    have htlen : u.tlen = s.tlen := by simp only [State.tlen, htab]
    obtain hkept | ⟨hroom, e, happend, hlen⟩ | ⟨hcleared, hc⟩ := codeEffect_tab heffect hu.engine
    · exact .inl (hkept.trans htab)
    · rw [htab] at happend
      exact .inr (.inl ⟨htlen ▸ hroom, tlen_of_tab_append happend, fun _ => tabRead_ne_of_tab_append happend, e,
        tabRead_tlen_of_tab_append happend, hlen⟩)
    · exact .inr (.inr ⟨hcleared, htaken.enough, hc⟩)

end Sys2Proof.Proofs
end

section
/-! SUPPORT. The bits of a byte string (R28, R51): packing keeps the bits it is given, and a field of the stream is the
number those bits write. -/

namespace Sys2Proof.Proofs

open Sys2Proof Sys2Proof.Machine Sys2Proof.Claims

/-! ## Packing -/

@[simp] theorem bitsOfBytes_cons (b : Byte) (rest : ByteString) :
    bitsOfBytes (b :: rest) = bitsOfByte b ++ bitsOfBytes rest := rfl

@[simp] theorem bitsOfBytes_append (xs ys : ByteString) :
    bitsOfBytes (xs ++ ys) = bitsOfBytes xs ++ bitsOfBytes ys := List.flatMap_append

/-- The other direction of `natOfBits_bitsOfNat`: reading bits as a number and writing them again gives the bits. -/
theorem bitsOfNat_natOfBits (bits : List Bool) : bitsOfNat bits.length (natOfBits bits) = bits := by
  induction bits using List.reverseRecOn with
  | nil => rfl
  | append_singleton bits b ih =>
    have hhalf : (2 * natOfBits bits + b.toNat) / 2 = natOfBits bits := by have := b.toNat_lt; omega
    have hlow : (2 * natOfBits bits + b.toNat).testBit 0 = b := by cases b <;> simp [Nat.testBit_zero]
    rw [List.length_append, List.length_singleton, natOfBits_append_one, bitsOfNat_succ, hhalf, hlow, ih]

/-- Only the low `w` bits of a number are written. -/
theorem bitsOfNat_mod (w n : Nat) : bitsOfNat w (n % 2 ^ w) = bitsOfNat w n := by
  rw [← natOfBits_bitsOfNat]
  simpa using bitsOfNat_natOfBits (bitsOfNat w n)

/-- The bits of a packed byte: the first eight, missing ones zero (R51). -/
theorem bitsOfByte_byteOfBits (bits : List Bool) :
    bitsOfByte (byteOfBits bits) = (bits ++ List.replicate 8 false).take 8 := by
  rw [bitsOfByte, byteOfBits, BitVec.toNat_ofNat, bitsOfNat_mod]
  simpa using bitsOfNat_natOfBits ((bits ++ List.replicate 8 false).take 8)

/-- Enough bytes keep all the bits packed into them. -/
theorem prefix_bitsOfBytes_bytesOfBits {n : Nat} {bits : List Bool} (h : bits.length ≤ 8 * n) :
    bits <+: bitsOfBytes (bytesOfBits n bits) := by
  induction n generalizing bits with
  | zero =>
    obtain rfl : bits = [] := List.eq_nil_of_length_eq_zero (by omega)
    exact List.nil_prefix
  | succ n ih =>
    rw [bytesOfBits, bitsOfBytes_cons, bitsOfByte_byteOfBits]
    rcases Nat.lt_or_ge bits.length 8 with hshort | hlong
    · exact (List.prefix_take_iff.2 ⟨List.prefix_append _ _, by omega⟩).trans (List.prefix_append _ _)
    · rw [List.take_append_of_le_length hlong]
      conv_lhs => rw [← List.take_append_drop 8 bits]
      exact (List.prefix_append_right_inj _).2 (ih (by simp; omega))

/-- Packing loses no bit: it only pads at the end (R51). -/
theorem prefix_bitsOfBytes_packBits (bits : List Bool) : bits <+: bitsOfBytes (packBits bits) :=
  prefix_bitsOfBytes_bytesOfBits (by omega)

/-! ## Fields -/

/-- Stream bit `k` is bit `k` of the bit string (R28). -/
theorem streamBit_of_getElem? {bytes : ByteString} {k : Nat} {b : Bool} (h : (bitsOfBytes bytes)[k]? = some b) :
    streamBit bytes k = b := by
  induction bytes generalizing k with
  | nil => cases h
  | cons c rest ih =>
    rw [bitsOfBytes_cons, List.getElem?_append, length_bitsOfByte] at h
    split at h
    · rename_i hk
      have hbit : c.toNat.testBit (8 - 1 - k) = b := by simpa [bitsOfByte, bitsOfNat, hk] using h
      rw [← hbit, streamBit, show k / 8 = 0 by omega, show 7 - k % 8 = 8 - 1 - k by omega]
      rfl
    · rename_i hk
      rw [← ih h, streamBit, streamBit, show k / 8 = (k - 8) / 8 + 1 by omega, List.getElem?_cons_succ,
        show (k - 8) % 8 = k % 8 by omega]

/-- The field of the bits that stand at `k` is the number they write (R59). -/
theorem streamField_of_prefix {bytes : ByteString} {k : Nat} {bits : List Bool}
    (h : bits <+: (bitsOfBytes bytes).drop k) : streamField bytes k bits.length = natOfBits bits := by
  induction bits using List.reverseRecOn with
  | nil => rfl
  | append_singleton bits b ih =>
    have hbit : (bitsOfBytes bytes)[k + bits.length]? = some b := by
      obtain ⟨rest, hrest⟩ := h
      rw [← List.getElem?_drop, ← hrest]
      simp
    rw [List.length_append, List.length_singleton, streamField_add, streamField_one, streamBit_of_getElem? hbit,
      ih ((List.prefix_append _ _).trans h), natOfBits_append_one]
    ring

/-- Bits that stand at the cursor are what `read_bits` of their number answers (R59). -/
theorem readBits_of_prefix {s : State} (h : s.ReaderInv) {bits : List Bool} (hlo : 1 ≤ bits.length)
    (hhi : bits.length ≤ 32) (hbits : bits <+: (bitsOfBytes s.input).drop s.cursor) :
    ∃ t, readBits bits.length s = .value (natOfBits bits) t := by
  have hlaw := readBits_streamLaw h hlo hhi
  have hleft := hbits.length_le
  rw [List.length_drop, length_bitsOfBytes] at hleft
  cases hread : readBits bits.length s with
  | value x t =>
    rw [hread] at hlaw
    obtain ⟨hx, -⟩ := hlaw
    exact ⟨t, by rw [hx, streamField_of_prefix hbits, Nat.zero_mul, Nat.zero_add]⟩
  | endOfStream t =>
    rw [hread] at hlaw
    have hshort : 8 * s.input.length < s.cursor + bits.length := hlaw.short
    omega
  | notAForm =>
    rw [hread] at hlaw
    exact hlaw.elim

end Sys2Proof.Proofs
end

section
/-! SUPPORT. The memory (20_memory.md): the table by index (R33, R34), and a word placed where the next step reads it
(R28, log 10). -/

namespace Sys2Proof.Proofs

open Sys2Proof Sys2Proof.Machine Sys2Proof.Claims

/-! ## The table -/

/-- The placeholders hold nothing (R17). -/
theorem tabRead_placeholder {i : Nat} (h : i = 256 ∨ i = 257) (s : State) : tabRead i s = none := by
  rcases h with rfl | rfl <;> rfl

/-- From `TLEN` up there is no entry (R18). -/
theorem tabRead_of_tlen_le {s : State} {i : Nat} (h : s.tlen ≤ i) : tabRead i s = none := by
  simp only [State.tlen, Config.firstDyn] at h
  rw [tabRead_dynamic (by omega), List.getElem?_eq_none (by omega)]

/-- Settles O14: each range of indices is one case of `TabRead`. -/
theorem tableReadByIndex : Obligations.TableReadByIndex := by
  intro s i
  refine ⟨fun hlit => ?_, fun hplaceholder => tabRead_placeholder hplaceholder s, fun hdyn hlt => ?_,
    tabRead_of_tlen_le⟩
  · have hi : (BitVec.ofNat 8 i).toNat = i := by rw [BitVec.toNat_ofNat]; omega
    have hread := tabRead_literal (BitVec.ofNat 8 i) s
    rwa [hi] at hread
  · obtain ⟨x, hx⟩ := tabRead_isSome hdyn hlt
    exact ⟨x, by rw [← tabRead_dynamic hdyn, hx], hx⟩

/-- Settles O15: the table after `TabAppend` is the old one with one entry at its end. -/
theorem tableAppendWritesOneEntry : Obligations.TableAppendWritesOneEntry := by
  intro s x
  have happend : (tabAppend x s).tab = s.tab ++ [x] := tabAppend_tab x s
  exact ⟨tabRead_tlen_of_tab_append happend, tlen_of_tab_append happend,
    fun _ hi => tabRead_ne_of_tab_append happend hi, rfl⟩

/-! ## Placing bits at the cursor -/

/-- The state whose input from the byte in `BUF` on is `b :: rest`; before the first pull `BUF` is no byte of the
input. -/
def replaceFromBuf (b : Byte) (rest : ByteString) (s : State) : State :=
  { s with
    buf := b
    input := s.input.take (s.ipos - 1) ++ (if s.ipos = 0 then [] else [b]) ++ rest }

@[simp] theorem replaceFromBuf_status (b : Byte) (rest : ByteString) (s : State) :
    (replaceFromBuf b rest s).status = s.status := rfl

@[simp] theorem replaceFromBuf_width (b : Byte) (rest : ByteString) (s : State) :
    (replaceFromBuf b rest s).width = s.width := rfl

/-- Placing bits replaces the input from the byte in `BUF` on, and the new bytes hold the placed bits at `BPOS`. -/
theorem placeBits_cases {s : State} (h : s.ReaderInv) {bits : List Bool} (hne : bits ≠ []) :
    ∃ b rest, placeBits bits s = replaceFromBuf b rest s ∧ bits <+: (bitsOfBytes (b :: rest)).drop s.bpos := by
  have hkept : ((bitsOfByte s.buf).take s.bpos).length = s.bpos := by simp [h.bpos_le]
  generalize hlater : (bitsOfByte s.buf ++ bitsOfBytes (unread s)).drop (s.bpos + bits.length) = later
  have hprefix := prefix_bitsOfBytes_packBits ((bitsOfByte s.buf).take s.bpos ++ bits ++ later)
  cases hpack : packBits ((bitsOfByte s.buf).take s.bpos ++ bits ++ later) with
  | nil =>
    rw [hpack, bitsOfBytes, List.flatMap_nil, List.prefix_nil] at hprefix
    simp [hne] at hprefix
  | cons b rest =>
    refine ⟨b, rest, by simp only [placeBits, hlater, hpack, replaceFromBuf], ?_⟩
    rw [hpack, List.append_assoc] at hprefix
    have hdrop := hprefix.drop s.bpos
    rw [List.drop_left' hkept] at hdrop
    exact (List.prefix_append _ _).trans hdrop

/-- Replacing bytes from `BUF` on keeps the reader as between steps. -/
theorem readerInv_replaceFromBuf {s : State} (h : s.ReaderInv) (b : Byte) (rest : ByteString) :
    (replaceFromBuf b rest s).ReaderInv := by
  have hipos := h.ipos_le
  refine ⟨h.bpos_le, ?_, h.nothing_pulled, fun hpulled => ?_⟩
  · simp only [replaceFromBuf]
    split <;> simp <;> omega
  · have hpulled : 0 < s.ipos := hpulled
    have htake : (s.input.take (s.ipos - 1)).length = s.ipos - 1 := by simp; omega
    simp [replaceFromBuf, show s.ipos ≠ 0 by omega, htake]

/-- After the replacement the bits at the cursor are those of the new bytes from `BPOS` on. -/
theorem drop_cursor_replaceFromBuf {s : State} (h : s.ReaderInv) (b : Byte) (rest : ByteString) :
    (bitsOfBytes (replaceFromBuf b rest s).input).drop (replaceFromBuf b rest s).cursor =
      (bitsOfBytes (b :: rest)).drop s.bpos := by
  obtain ⟨hbpos, hipos, hfresh, -⟩ := h
  rcases Nat.eq_zero_or_pos s.ipos with hi | hi
  · simp [replaceFromBuf, State.cursor, hi, hfresh hi]
  · have hcursor : (replaceFromBuf b rest s).cursor = (bitsOfBytes (s.input.take (s.ipos - 1))).length + s.bpos := by
      simp only [State.cursor, replaceFromBuf, length_bitsOfBytes, List.length_take]
      omega
    rw [hcursor]
    simp [replaceFromBuf, show s.ipos ≠ 0 by omega, List.drop_append]

/-! ## Placing a word -/

@[simp] theorem engineFor_width (f : Format) (s : State) : (engineFor f s).width = f := by
  unfold engineFor
  split_ifs with hsame hnine
  · exact hsame
  · exact hnine.symm
  · rfl

@[simp] theorem engineFor_status (f : Format) (s : State) : (engineFor f s).status = s.status := by
  unfold engineFor
  split_ifs <;> rfl

/-- Preparing the engine for a format leaves the reader alone. -/
theorem readerInv_engineFor {s : State} (h : s.ReaderInv) (f : Format) : (engineFor f s).ReaderInv := by
  unfold engineFor
  split_ifs <;> exact readerInv_congr h rfl rfl rfl rfl

/-- Settles O49: the word's bits stand at the cursor, so the stream law says that they are read next. -/
theorem fetchWordIsReadNext : Obligations.FetchWordIsReadNext := by
  intro s nbits w hinv hfits
  rw [State.withFetchWord, placeWord]
  generalize tableFormat s.width nbits w = f at hfits ⊢
  obtain ⟨hlo, hhi⟩ := bits_bounds f
  have hrunning : State.ReaderInv { s with status := .run, cause := .noCause, ecode := 0 } :=
    readerInv_congr hinv rfl rfl rfl rfl
  have hengine := readerInv_engineFor hrunning f
  have hne : bitsOfNat f.bits w ≠ [] := List.ne_nil_of_length_pos (by simp; omega)
  obtain ⟨b, rest, hplace, hbits⟩ := placeBits_cases hengine hne
  have hreader := readerInv_replaceFromBuf hengine b rest
  rw [← drop_cursor_replaceFromBuf hengine] at hbits
  obtain ⟨t, hread⟩ := readBits_of_prefix hreader (by simp; omega) (by simp; omega) hbits
  rw [length_bitsOfNat, natOfBits_bitsOfNat, Nat.mod_eq_of_lt hfits] at hread
  rw [hplace]
  exact ⟨by simp, by simp, hreader, t, hread⟩

end Sys2Proof.Proofs
end

section
/-! SUPPORT. The decoder (R41, R44): the conditions of the rows exclude each other, in a consistent context exactly one of
them holds, and a code's bits are read back as the instruction of that row. -/

namespace Sys2Proof.Proofs

open Sys2Proof Sys2Proof.Machine Sys2Proof.Claims Sys2Proof.Laws

/-! ## The class order -/

/-- A class whose condition holds is the one that the tests of R44 find: the conditions exclude each other, as the
control codes are below every table length. -/
theorem classify_of_cond {ctx : DecodeCtx} {k : CodeClass} {c : Nat} (htlen : 258 ≤ ctx.tlen)
    (h : k.cond ctx c = true) : classify ctx c = k := by
  cases k <;> simp only [CodeClass.cond, decide_eq_true_eq, Config.clearValue, Config.endValue, Config.firstDyn,
    Config.maxTlen] at h
  case clr => simp [classify, h]
  case endOfData => simp [classify, h]
  case first =>
    obtain ⟨hprev, hle⟩ := h
    simp [classify, hprev, show c ≠ 256 by omega, show c ≠ 257 by omega, show c < 258 by omega]
  case firstNotLiteral =>
    obtain ⟨hprev, hge⟩ := h
    simp [classify, hprev, hge, show c ≠ 256 by omega, show c ≠ 257 by omega]
  case badRef =>
    obtain ⟨hprev, hgt⟩ := h
    simp [classify, hprev, hgt, show c ≠ 256 by omega, show c ≠ 257 by omega]
  case tableFull =>
    obtain ⟨hprev, hle, hfull, hclr, hend⟩ := h
    simp [classify, hprev, hfull, hclr, hend, show ¬ 4096 < c by omega]
  case lit =>
    obtain ⟨hprev, hle, hroom⟩ := h
    simp [classify, hprev, hle, show c ≠ 256 by omega, show c ≠ 257 by omega, show ¬ ctx.tlen < c by omega,
      show ctx.tlen ≠ 4096 by omega, show c < ctx.tlen by omega]
  case ref =>
    obtain ⟨hprev, hge, hlt, hroom⟩ := h
    simp [classify, hprev, hlt, show c ≠ 256 by omega, show c ≠ 257 by omega, show ¬ ctx.tlen < c by omega,
      show ctx.tlen ≠ 4096 by omega, show ¬ c ≤ 255 by omega]
  case kwk =>
    obtain ⟨hprev, rfl, hroom⟩ := h
    simp [classify, hprev, show ctx.tlen ≠ 256 by omega, show ctx.tlen ≠ 257 by omega,
      show ctx.tlen ≠ 4096 by omega]

/-- The class that the tests of R44 find has its condition. -/
theorem cond_classify {ctx : DecodeCtx} (htlen : ctx.tlen ≤ 4096) (c : Nat) :
    (classify ctx c).cond ctx c = true := by
  simp only [classify, Config.clearValue, Config.endValue, Config.firstDyn, Config.maxTlen]
  split_ifs <;> simp [CodeClass.cond, *] <;> omega

/-- What a consistent context is, in numbers. -/
theorem ctx_ok_iff {ctx : DecodeCtx} :
    ctx.ok = true ↔ 258 ≤ ctx.tlen ∧ ctx.tlen ≤ 4096 ∧ ctx.width = widthOf ctx.tlen ∧
      (ctx.prevEmpty = true → ctx.tlen = 258) :=
  decide_eq_true_iff

/-! ## The rows -/

/-- A code value fits its format (R41). -/
theorem code_lt_two_pow_bits (i : Instr) : i.code < 2 ^ i.format.bits := by
  cases i
  case clrW9 | clrW10 | clrW11 | clrW12 | endW9 | endW10 | endW11 | endW12 => decide
  case firstW9 b | litW9 b | litW10 b | litW11 b | litW12 b => exact b.isLt.trans (by simp [Instr.format, Format.bits])
  all_goals exact BitVec.isLt _

/-- An instruction is the one its row makes of its code. -/
theorem rowInstr_self (i : Instr) : rowInstr i.format i.cls i.code = some i := by
  cases i <;> simp [Instr.format, Instr.cls, Instr.code, rowInstr]

/-- The classes that R44 gives a row in only one format: FIRST and FIRST_NOT_LITERAL in W9, TABLE_FULL in W12. -/
theorem rowInstr_isSome {f : Format} {k : CodeClass} (c : Nat)
    (hfirst : k = .first ∨ k = .firstNotLiteral → f = .w9) (hfull : k = .tableFull → f = .w12) :
    ∃ i, rowInstr f k c = some i := by
  cases k
  case first => obtain rfl := hfirst (.inl rfl); exact ⟨_, rfl⟩
  case firstNotLiteral => obtain rfl := hfirst (.inr rfl); exact ⟨_, rfl⟩
  case tableFull => obtain rfl := hfull rfl; exact ⟨_, rfl⟩
  all_goals cases f <;> exact ⟨_, rfl⟩

/-- In a consistent context the class of every code has a row: an empty `PREV` forces 9 bits, a full table 12. -/
theorem rowInstr_classify_isSome {ctx : DecodeCtx} (hok : ctx.ok = true) (c : Nat) :
    ∃ i, rowInstr ctx.width (classify ctx c) c = some i := by
  obtain ⟨-, hmax, hwidth, hprev⟩ := ctx_ok_iff.1 hok
  have hcond := cond_classify hmax c
  refine rowInstr_isSome c (fun hk => ?_) (fun hk => ?_)
  · have hempty : ctx.prevEmpty = true := by
      rcases hk with hk | hk <;> simp only [hk, CodeClass.cond, decide_eq_true_eq] at hcond <;> exact hcond.1
    rw [hwidth, hprev hempty]
    rfl
  · have hfull : ctx.tlen = 4096 := by
      simp only [hk, CodeClass.cond, decide_eq_true_eq] at hcond
      exact hcond.2.2.1
    rw [hwidth, hfull]
    rfl

/-- Every instruction, of whichever row, is well-formed exactly when some consistent context selects it. -/
theorem occurs (i : Instr) : Occurs.Statement i := by
  refine occurs_of_row i ?_ ?_ (fun hk => ?byte) ?_ ?_ (code_lt_two_pow_bits i)
  case byte =>
    cases i
    case firstW9 b | litW9 b | litW10 b | litW11 b | litW12 b => exact Nat.le_of_lt_succ b.isLt
    all_goals simp [Instr.cls] at hk
  all_goals cases i <;> simp [Instr.cls, Instr.format, Instr.code]

/-! ## Decoding a value -/

/-- Decoding a value that fits is taking the row of its class. -/
theorem decodeCode_eq_ok_iff {ctx : DecodeCtx} {c : Nat} {i : Instr} :
    decodeCode ctx c = .ok i ↔ c < 2 ^ ctx.width.bits ∧ rowInstr ctx.width (classify ctx c) c = some i := by
  unfold decodeCode
  split_ifs with hwide
  · simp; omega
  · cases rowInstr ctx.width (classify ctx c) c <;> simp; omega

/-- A context that selects an instruction decodes its code to it. -/
theorem decodeCode_of_selected {ctx : DecodeCtx} {i : Instr} (htlen : 258 ≤ ctx.tlen)
    (h : i.selected ctx = true) : decodeCode ctx i.code = .ok i := by
  simp only [Instr.selected, Bool.and_eq_true, decide_eq_true_eq] at h
  obtain ⟨hformat, hcond⟩ := h
  rw [decodeCode_eq_ok_iff, ← hformat, classify_of_cond htlen hcond]
  exact ⟨code_lt_two_pow_bits i, rowInstr_self i⟩

/-- What the decoder answers is of the width in force and of the class of R44. -/
theorem format_cls_of_decodeCode {ctx : DecodeCtx} {c : Nat} {i : Instr} (h : decodeCode ctx c = .ok i) :
    i.format = ctx.width ∧ i.cls = classify ctx c :=
  rowInstr_format (decodeCode_eq_ok_iff.1 h).2

/-- What the decoder answers is selected. -/
theorem selected_of_decodeCode {ctx : DecodeCtx} {c : Nat} {i : Instr} (htlen : ctx.tlen ≤ 4096)
    (h : decodeCode ctx c = .ok i) : i.selected ctx = true := by
  obtain ⟨hformat, hcls⟩ := format_cls_of_decodeCode h
  simp [Instr.selected, hformat, hcls, code_of_decodeCode h, cond_classify htlen c]

/-- In a consistent context every value that fits decodes. -/
theorem decodeCode_isOk {ctx : DecodeCtx} (hok : ctx.ok = true) {c : Nat} (hfits : c < 2 ^ ctx.width.bits) :
    ∃ i, decodeCode ctx c = .ok i := by
  obtain ⟨i, hi⟩ := rowInstr_classify_isSome hok c
  exact ⟨i, decodeCode_eq_ok_iff.2 ⟨hfits, hi⟩⟩

/-! ## Decoding bits -/

/-- Decoding bits is decoding the number in the first `WIDTH` of them. -/
theorem decodeBits_eq_ok_iff {ctx : DecodeCtx} {bits rest : List Bool} {i : Instr} :
    decodeBits ctx bits = .ok (i, rest) ↔
      ctx.width.bits ≤ bits.length ∧ decodeCode ctx (natOfBits (bits.take ctx.width.bits)) = .ok i ∧
        rest = bits.drop ctx.width.bits := by
  unfold decodeBits
  split_ifs with hshort
  · simp; omega
  · cases decodeCode ctx (natOfBits (bits.take ctx.width.bits)) <;> simp [eq_comm]; omega

/-- The bits of an instruction write its code (R41). -/
@[simp] theorem natOfBits_encodeBits (i : Instr) : natOfBits (encodeBits i) = i.code := by
  rw [encodeBits, natOfBits_bitsOfNat, Nat.mod_eq_of_lt (code_lt_two_pow_bits i)]

/-- Settles O2: the first `WIDTH` bits are those of the instruction, their number is its code, and the context that
selects the row decodes that code to it. -/
theorem decodeOfEncodeIsIdentity : Obligations.DecodeOfEncodeIsIdentity := by
  intro i ctx rest _ hsel htlen
  have hformat : i.format = ctx.width := by
    simp only [Instr.selected, Bool.and_eq_true, decide_eq_true_eq] at hsel
    exact hsel.1
  have hlength : (encodeBits i).length = ctx.width.bits := by rw [length_encodeBits, hformat]
  refine decodeBits_eq_ok_iff.2 ⟨by simp [hformat], ?_, (List.drop_left' hlength).symm⟩
  rw [List.take_left' hlength, natOfBits_encodeBits, decodeCode_of_selected htlen hsel]

/-- Settles O3: the instruction has the code that its first `WIDTH` bits write, so its own bits are these. -/
theorem encodeOfDecodeIsIdentity : Obligations.EncodeOfDecodeIsIdentity := by
  intro ctx bits rest i hok hdecode
  obtain ⟨hlength, hcode, rfl⟩ := decodeBits_eq_ok_iff.1 hdecode
  obtain ⟨-, hmax, -⟩ := ctx_ok_iff.1 hok
  have hsel := selected_of_decodeCode hmax hcode
  obtain ⟨hformat, -⟩ := format_cls_of_decodeCode hcode
  have hbits : encodeBits i = bits.take ctx.width.bits := by
    have hwrite := bitsOfNat_natOfBits (bits.take ctx.width.bits)
    rwa [List.length_take_of_le hlength, ← code_of_decodeCode hcode, ← hformat, ← encodeBits, hformat] at hwrite
  exact ⟨(occurs i).2 ⟨ctx, hok, hsel⟩, hsel, by rw [hbits, List.take_append_drop]⟩

/-- Settles O4: the decoder's answer is the row, and the decoder answers every row that is selected. -/
theorem everyCodeInExactlyOneRow : Obligations.EveryCodeInExactlyOneRow := by
  intro ctx c hok hfits
  obtain ⟨hmin, hmax, -⟩ := ctx_ok_iff.1 hok
  obtain ⟨i, hi⟩ := decodeCode_isOk hok hfits
  have hsel := selected_of_decodeCode hmax hi
  refine ⟨i, hi, code_of_decodeCode hi, (occurs i).2 ⟨ctx, hok, hsel⟩, hsel, fun j hj hsel' => ?_⟩
  have hdecode := decodeCode_of_selected hmin hsel'
  rw [hj, hi] at hdecode
  exact (Except.ok.inj hdecode).symm

/-- The all-ones value exceeds every table length that is read in fewer than 12 bits (R47). -/
theorem maxTlen_lt_allOnes {f : Format} (h : f ≠ .w12) : f.maxTlen < 2 ^ f.bits - 1 := by
  cases f
  case w12 => exact absurd rfl h
  all_goals decide

/-- Settles O6: the all-ones value exceeds `TLEN`, so the row of BAD_REF or FIRST_NOT_LITERAL has it. -/
theorem allOnesIllegalBelowTwelveBits : Obligations.AllOnesIllegalBelowTwelveBits := by
  refine ⟨fun ctx hok hwidth => ?_, rfl⟩
  obtain ⟨hmin, -, -⟩ := ctx_ok_iff.1 hok
  have hgt : ctx.tlen < 2 ^ ctx.width.bits - 1 := (range_of_ctx_ok hok).2.trans_lt (maxTlen_lt_allOnes hwidth)
  obtain ⟨i, hi⟩ := decodeCode_isOk hok (c := 2 ^ ctx.width.bits - 1) (by omega)
  refine ⟨i, hi, (format_cls_of_decodeCode hi).2.trans (classify_of_cond hmin ?_)⟩
  cases hprev : ctx.prevEmpty
  · simp [CodeClass.cond, hprev, hgt]
  · simp [CodeClass.cond, hprev]; omega

/-- Settles O1: each of the nine words is evaluated. -/
theorem specWordsDecode : Obligations.SpecWordsDecode := by
  unfold Obligations.SpecWordsDecode
  decide

end Sys2Proof.Proofs
end

section
/-! SUPPORT. The opcode table (R44): a row's mask and match columns are a test of the value, and the first row that
matches is the row of the class that the tests of R44 find. -/

namespace Sys2Proof.Proofs

open Sys2Proof Sys2Proof.Machine Sys2Proof.Claims

/-! ## The columns of a row -/

/-- The mask column by class: all bits for the control codes, the bits above a byte for the byte classes. -/
def maskOf (f : Format) : CodeClass → Nat
  | .clr | .endOfData => 2 ^ f.bits - 1
  | .first | .lit => (2 ^ (f.bits - 8) - 1) <<< 8
  | .firstNotLiteral | .badRef | .tableFull | .ref | .kwk => 0

/-- The match column by class. -/
def matchOf : CodeClass → Nat
  | .clr => 256
  | .endOfData => 257
  | .first | .firstNotLiteral | .badRef | .tableFull | .lit | .ref | .kwk => 0

/-- The priority column by class. -/
def priorityOf : CodeClass → Nat
  | .clr => 1
  | .endOfData => 2
  | .first => 3
  | .firstNotLiteral => 4
  | .badRef => 5
  | .tableFull => 6
  | .lit | .ref => 7
  | .kwk => 8

/-- The columns of the table depend on format and class alone. -/
theorem opcodeRows_columns : ∀ r ∈ opcodeRows,
    r.maskBits = maskOf r.format r.cls ∧ r.matchBits = matchOf r.cls ∧ r.priority = priorityOf r.cls := by
  decide

/-- Within a format the rows stand in ascending priority. -/
theorem opcodeRows_ascending :
    opcodeRows.Pairwise fun r r' => r.format = r'.format → r.priority ≤ r'.priority := by
  decide

/-- An instruction's row is in the table. -/
theorem exists_row (i : Instr) : ∃ r ∈ opcodeRows, r.format = i.format ∧ r.cls = i.cls := by
  cases i <;> simp only [Instr.format, Instr.cls] <;> decide

/-! ## The value tests of the masks -/

/-- The bits above the low byte are zero exactly for a byte. -/
theorem and_above_byte_eq_zero_iff {w c : Nat} (hw : 8 ≤ w) (hfits : c < 2 ^ w) :
    c &&& ((2 ^ (w - 8) - 1) <<< 8) = 0 ↔ c ≤ 255 := by
  have hhigh : c / 2 ^ 8 < 2 ^ (w - 8) := by
    rw [Nat.div_lt_iff_lt_mul (by positivity), ← pow_add, Nat.sub_add_cancel hw]
    exact hfits
  have hdiv : (c &&& ((2 ^ (w - 8) - 1) <<< 8)) / 2 ^ 8 = c / 2 ^ 8 := by
    rw [Nat.shiftLeft_eq, Nat.and_div_two_pow, Nat.mul_div_cancel _ (by positivity), Nat.and_two_pow_sub_one_eq_mod,
      Nat.mod_eq_of_lt hhigh]
  have hmod : (c &&& ((2 ^ (w - 8) - 1) <<< 8)) % 2 ^ 8 = 0 := by
    rw [Nat.shiftLeft_eq, Nat.and_mod_two_pow, Nat.mul_mod_left, Nat.and_zero]
  omega

/-- What the mask and match columns of a class say of a value that fits (R44). -/
def valueTest (c : Nat) : CodeClass → Prop
  | .clr => c = 256
  | .endOfData => c = 257
  | .first | .lit => c ≤ 255
  | .firstNotLiteral | .badRef | .tableFull | .ref | .kwk => True

/-- The mask and match columns of a class are its value test. -/
theorem and_maskOf_eq_matchOf_iff {f : Format} {c : Nat} (k : CodeClass) (hfits : c < 2 ^ f.bits) :
    c &&& maskOf f k = matchOf k ↔ valueTest c k := by
  have hbits := bits_bounds f
  have hall : c &&& (2 ^ f.bits - 1) = c := by rw [Nat.and_two_pow_sub_one_eq_mod, Nat.mod_eq_of_lt hfits]
  have hbyte := and_above_byte_eq_zero_iff (by omega : 8 ≤ f.bits) hfits
  cases k <;> simp [maskOf, matchOf, valueTest, hall, hbyte]

/-! ## The row that decodes -/

/-- A row matches exactly where it is of the width and its class's condition holds, but for TABLE_FULL, whose `cond`
column leaves the control codes to the rows before it. -/
theorem holds_iff_cond {r : OpcodeRow} (hr : r ∈ opcodeRows) {ctx : DecodeCtx} {c : Nat}
    (hfits : c < 2 ^ ctx.width.bits) (hfull : r.cls = .tableFull → c ≠ 256 ∧ c ≠ 257) :
    r.holds ctx c = true ↔ r.format = ctx.width ∧ r.cls.cond ctx c = true := by
  obtain ⟨hmask, hmatch, -⟩ := opcodeRows_columns r hr
  simp only [OpcodeRow.holds, Bool.and_eq_true, decide_eq_true_eq, and_assoc]
  refine and_congr_right fun hformat => ?_
  rw [hmask, hmatch, and_maskOf_eq_matchOf_iff _ (hformat ▸ hfits)]
  cases hk : r.cls
  case tableFull => simp [OpcodeRow.cond, CodeClass.cond, valueTest, hk, hfull hk]
  case first => simp [OpcodeRow.cond, CodeClass.cond, valueTest, hk, and_comm]
  case lit => simp [OpcodeRow.cond, CodeClass.cond, valueTest, hk, and_left_comm]
  all_goals simp [OpcodeRow.cond, CodeClass.cond, valueTest, hk]

/-- The first row that matches has the least priority of those of its format that match. -/
theorem priority_le_of_find? {p : OpcodeRow → Bool} {r r' : OpcodeRow} (hfind : opcodeRows.find? p = some r)
    (hr' : r' ∈ opcodeRows) (hp : p r' = true) (hformat : r.format = r'.format) : r.priority ≤ r'.priority := by
  obtain ⟨-, before, after, hsplit, hnone⟩ := List.find?_eq_some_iff_append.1 hfind
  have hsorted := opcodeRows_ascending
  rw [hsplit] at hsorted hr'
  rcases List.mem_append.1 hr' with hbefore | hrest
  · have := hnone r' hbefore
    simp [hp] at this
  · rcases List.mem_cons.1 hrest with rfl | hafter
    · exact le_rfl
    · exact List.rel_of_pairwise_cons (List.pairwise_append.1 hsorted).2.1 hafter hformat

/-- In a consistent context the table finds the row of the class that the tests of R44 find. -/
theorem find?_opcodeRows {ctx : DecodeCtx} {c : Nat} (hok : ctx.ok = true) (hfits : c < 2 ^ ctx.width.bits) :
    ∃ r, opcodeRows.find? (fun r => r.holds ctx c) = some r ∧ r.format = ctx.width ∧ r.cls = classify ctx c := by
  obtain ⟨hmin, hmax, -⟩ := ctx_ok_iff.1 hok
  obtain ⟨i, hi⟩ := decodeCode_isOk hok hfits
  obtain ⟨hiformat, hicls⟩ := format_cls_of_decodeCode hi
  obtain ⟨r', hr', hformat', hcls'⟩ := exists_row i
  rw [hiformat] at hformat'
  rw [hicls] at hcls'
  have hcond' : r'.cls.cond ctx c = true := hcls' ▸ cond_classify hmax c
  have hholds' : r'.holds ctx c = true := by
    refine (holds_iff_cond hr' hfits fun hfull => ?_).2 ⟨hformat', hcond'⟩
    simp only [hfull, CodeClass.cond, decide_eq_true_eq] at hcond'
    exact hcond'.2.2.2
  obtain ⟨r, hfind⟩ := Option.isSome_iff_exists.1 (List.find?_isSome (p := (·.holds ctx c)).2 ⟨r', hr', hholds'⟩)
  have hr := List.mem_of_find?_eq_some hfind
  have hholds := List.find?_some hfind
  have hformat : r.format = ctx.width := by
    simp only [OpcodeRow.holds, Bool.and_eq_true, decide_eq_true_eq] at hholds
    exact hholds.1.1
  have hle := priority_le_of_find? hfind hr' hholds' (hformat.trans hformat'.symm)
  have hcontrol : r.cls = .tableFull → c ≠ 256 ∧ c ≠ 257 := by
    intro hfull
    rw [(opcodeRows_columns r hr).2.2, (opcodeRows_columns r' hr').2.2, hfull, hcls'] at hle
    constructor <;> rintro rfl <;> simp [classify, priorityOf] at hle
  obtain ⟨-, hcond⟩ := (holds_iff_cond hr hfits hcontrol).1 hholds
  exact ⟨r, hfind, hformat, (classify_of_cond hmin hcond).symm⟩

/-- Settles O5: the table's first match and the tests of R44 name one row. -/
theorem opcodeTableInPriorityOrder : Obligations.OpcodeTableInPriorityOrder := by
  intro ctx c i hok hfits
  obtain ⟨r, hfind, hformat, hcls⟩ := find?_opcodeRows hok hfits
  rw [decodeCode_eq_ok_iff, tableDecode, hfind, Option.bind_some, hformat, hcls]
  exact and_iff_right hfits

end Sys2Proof.Proofs
end

section
/-! SUPPORT. A running step always goes (R44, R84): whatever is read fits the width, in a state between steps it decodes,
and the row that decodes it is selected, so the instruction runs; and which steps end in ERR_CORRUPT. -/

namespace Sys2Proof.Proofs

open Sys2Proof Sys2Proof.Machine Sys2Proof.Claims

/-! ## Instructions -/

/-- The meaning answers a next state where `selected` is true, and is refused elsewhere (log 9). -/
def RunsExactlyWhen (selected : Bool) (r : Result) : Prop :=
  (selected = true → Goes r) ∧ (selected = false → r = .refused .rowNotSelected)

/-- A meaning guarded by its row's condition runs exactly where that holds. -/
theorem whenSelected_runs (k : CodeClass) (c : Nat) (s t : State) :
    RunsExactlyWhen (k.cond s.ctx c) (whenSelected k c s t) :=
  ⟨fun h => ⟨t, whenSelected_eq_next.2 ⟨h, rfl⟩⟩, fun h => by simp [whenSelected, h]⟩

/-- REF reads its entry first, which its row's condition says is there. -/
theorem refCode_runs (c : Nat) (s : State) : RunsExactlyWhen (CodeClass.ref.cond s.ctx c) (refCode c s) := by
  cases hx : tabRead c s with
  | some x =>
    have hcode : refCode c s = whenSelected .ref c s (indexCode c x s) := by simp only [refCode, hx]
    exact hcode ▸ whenSelected_runs .ref c s _
  | none =>
    have hcode : refCode c s = .refused .rowNotSelected := by simp only [refCode, hx]
    refine ⟨fun hcond => ?_, fun _ => hcode⟩
    obtain ⟨-, hmin, hlt, -⟩ := of_decide_eq_true hcond
    obtain ⟨x, hx'⟩ := tabRead_isSome hmin hlt
    simp [hx] at hx'

/-- The control codes are selected everywhere, and always run. -/
theorem runsExactlyWhen_of_goes {selected : Bool} {r : Result} (hselected : selected = true) (h : Goes r) :
    RunsExactlyWhen selected r :=
  ⟨fun _ => h, fun hnot => by simp [hselected] at hnot⟩

/-- Every instruction runs exactly where its row's condition holds. -/
theorem exec_runs (i : Instr) (s : State) : RunsExactlyWhen (i.cls.cond s.ctx i.code) (exec i s) := by
  cases i
  case clrW9 | clrW10 | clrW11 | clrW12 | endW9 | endW10 | endW11 | endW12 =>
    exact runsExactlyWhen_of_goes rfl ⟨_, rfl⟩
  case refW9 c | refW10 c | refW11 c | refW12 c => exact refCode_runs c.toNat s
  all_goals exact whenSelected_runs _ _ s _

/-- Settles O24: a meaning is guarded by the condition of its row. -/
theorem execRunsExactlySelectedRows : Obligations.ExecRunsExactlySelectedRows := exec_runs

/-! ## Steps -/

/-- A field is below the power of two of its length (R57). -/
theorem streamField_lt_two_pow (bytes : ByteString) (k n : Nat) : streamField bytes k n < 2 ^ n := by
  induction n with
  | zero => simp
  | succ n ih =>
    have hbit := (streamBit bytes (k + n)).toNat_lt
    rw [streamField_add, streamField_one, pow_succ]
    omega

/-- The context that a state between steps shows is consistent. -/
theorem ctx_ok_of_engineInv {s : State} (h : s.EngineInv) : s.ctx.ok = true := by
  refine ctx_ok_iff.2 ⟨by simp [State.tlen], tlen_le_of_engineInv h, h.width_forced, fun hempty => ?_⟩
  have htab := h.first_cleared (List.isEmpty_iff.1 hempty)
  simp [State.tlen, htab]

/-- A code that fits runs in every state between steps (R44): its row is selected there. -/
theorem decode_exec_goes {s : State} (h : s.EngineInv) {c : Nat} (hfits : c < 2 ^ s.width.bits) :
    ∃ i, decodeCode s.ctx c = .ok i ∧ Goes (exec i s) := by
  obtain ⟨i, hi⟩ := decodeCode_isOk (ctx_ok_of_engineInv h) hfits
  have hsel := selected_of_decodeCode (tlen_le_of_engineInv h) hi
  simp only [Instr.selected, Bool.and_eq_true] at hsel
  exact ⟨i, hi, (exec_runs i s).1 hsel.2⟩

/-- Reading a code changes the reader's registers alone (R56). -/
theorem readBits_width_sameOutsideReader {f : Format} {s u : State} {c : Nat} (h : readBits f.bits s = .value c u) :
    SameOutsideReader s u := by
  rw [readBits_width] at h
  exact (readLoop_sameOutsideReader _ _ _ s).1 c u h

/-- A step whose read answers a code that decodes runs the instruction (R73). -/
theorem step_eq_exec {s u : State} {c : Nat} {i : Instr} (hrun : s.status = .run)
    (hread : readBits s.width.bits s = .value c u) (hdecode : decodeCode u.ctx c = .ok i) : step s = exec i u := by
  simp only [step, hrun, hread, hdecode]

/-- Settles O36: the read ends the run, or answers a code that fits and so has a selected row. -/
theorem runningStepAlwaysGoes : Obligations.RunningStepAlwaysGoes := by
  intro s hinv hrun
  have hlaw := readBits_width_streamLaw hinv.reader s.width
  cases hread : readBits s.width.bits s with
  | endOfStream u => exact ⟨raiseEndOfStream u, by simp only [step, hrun, hread]⟩
  | notAForm =>
    rw [hread] at hlaw
    exact hlaw.elim
  | value c u =>
    rw [hread] at hlaw
    obtain ⟨hc, htaken⟩ := hlaw
    have hsame := readBits_width_sameOutsideReader hread
    have hu := inv_of_sameOutsideReader hsame htaken.reader hinv
    have hfits : c < 2 ^ u.width.bits := by
      have hfield := streamField_lt_two_pow s.input s.cursor s.width.bits
      have hwidth : u.width = s.width := by rw [hsame]
      rw [hwidth]
      omega
    obtain ⟨i, hi, hgoes⟩ := decode_exec_goes hu.engine hfits
    rwa [step_eq_exec hrun hread hi]

/-! ## The illegal codes -/

/-- A code that raises `CorruptStream` (R47): no control code, and no literal where it must be one, or above `TLEN` or
with a full table where there is a `PREV`. -/
def IllegalCode (s : State) (c : Nat) : Prop :=
  c ≠ 256 ∧ c ≠ 257 ∧ ((s.prev = [] ∧ 258 ≤ c) ∨ (s.prev ≠ [] ∧ (s.tlen < c ∨ s.tlen = 4096)))

/-- The cause of an illegal code, by the order of the tests (R86). -/
def illegalCause (s : State) (c : Nat) : Cause :=
  if s.prev = [] then .firstNotLiteral else if s.tlen < c then .badRef else .tableFull

/-- What raises `CorruptStream` is an illegal code, and the cause is the first that applies. -/
theorem illegalCode_of_raisedBy {s : State} {c : Nat} {cause : Cause} (h : RaisedBy s c cause) :
    IllegalCode s c ∧ cause = illegalCause s c := by
  have htlen : 258 ≤ s.tlen := by simp [State.tlen]
  cases cause with
  | noCause => exact h.elim
  | firstNotLiteral =>
    obtain ⟨hprev, hge⟩ := h
    exact ⟨⟨by omega, by omega, .inl ⟨hprev, hge⟩⟩, by simp [illegalCause, hprev]⟩
  | badRef =>
    obtain ⟨hprev, hgt⟩ := h
    exact ⟨⟨by omega, by omega, .inr ⟨hprev, .inl hgt⟩⟩, by simp [illegalCause, hprev, hgt]⟩
  | tableFull =>
    obtain ⟨hprev, hle, hfull, hclr, hend⟩ := h
    exact ⟨⟨hclr, hend, .inr ⟨hprev, .inr hfull⟩⟩, by simp [illegalCause, hprev, show ¬ s.tlen < c by omega]⟩

/-- An illegal code takes the exception, and no other code ends in ERR_CORRUPT. -/
theorem codeEffect_errCorrupt {s t : State} {c : Nat} (h : CodeEffect s c t) (hrun : s.status = .run) :
    (t.status = .errCorrupt ↔ IllegalCode s c) ∧
      (t.status = .errCorrupt → t = raiseCorrupt (illegalCause s c) c s) := by
  cases h with
  | corrupt cause hraised =>
    obtain ⟨hillegal, rfl⟩ := illegalCode_of_raisedBy hraised
    exact ⟨by simp [hillegal], fun _ => rfl⟩
  | clear hc => simp [IllegalCode, hc, hrun]
  | endOfData hc => simp [IllegalCode, hc]
  | first b hc hprev =>
    have hlit : ¬ 258 ≤ c := by have := b.isLt; omega
    simp [IllegalCode, hprev, hlit, hrun]
  | append x hx hprev hroom hc hclr hend =>
    have hstatus : (indexCode c x s).status = .run := hrun
    simp [IllegalCode, hprev, hstatus, show ¬ s.tlen < c by omega, show s.tlen ≠ 4096 by omega]

/-- Settles O32: of the endings of a step only an illegal code's is ERR_CORRUPT, and the exception writes the status
surface alone. -/
theorem corruptExactlyOnIllegalCodes : Obligations.CorruptExactlyOnIllegalCodes := by
  intro s t hinv _ hstep
  obtain ⟨hrun, u, hsame, ⟨hended, rfl⟩ | ⟨htaken, heffect⟩⟩ := step_effect hinv.reader hstep
  · have hshort : ¬ codeLeft s := not_le.2 hended.short
    simp [hshort]
  · obtain ⟨hiff, hraise⟩ := codeEffect_errCorrupt heffect (hsame.status.trans hrun)
    have hprev : u.prev = s.prev := by rw [hsame]
    have htlen : u.tlen = s.tlen := by rw [hsame]; rfl
    simp only [IllegalCode, illegalCause, hprev, htlen] at hiff hraise
    refine ⟨hiff.trans (and_iff_right htaken.enough).symm, fun hcorrupt => ?_⟩
    rw [hraise hcorrupt]
    exact ⟨htaken.cursor, by rw [hsame]; rfl⟩

end Sys2Proof.Proofs
end

section
/-! SUPPORT. The packer and the decoder keep the same width schedule (R42, R51), so a decoder that reads `pack` of a list of
codes takes the same steps as one that is handed the codes. -/

namespace Sys2Proof.Proofs

open Sys2Proof Sys2Proof.Machine Sys2Proof.Claims

/-! ## Instructions do not look at the reader -/

/-- Only the classes with an entry depend on it. -/
theorem classEffect_congr {k : CodeClass} {x y : ByteString} (h : k = .lit ∨ k = .ref → x = y) (c : Nat) (s : State) :
    classEffect k c x s = classEffect k c y s := by
  cases k
  case lit => rw [h (.inl rfl)]
  case ref => rw [h (.inr rfl)]
  all_goals rfl

/-- An effect carries the reader's registers along. -/
theorem classEffect_sameOutsideReader {s u : State} (h : SameOutsideReader s u) (k : CodeClass) (c : Nat)
    (x : ByteString) : SameOutsideReader (classEffect k c x s) (classEffect k c x u) := by
  rw [SameOutsideReader] at h
  rw [h]
  cases k <;> rfl

/-- An instruction that runs in one state does the same in a state that differs in the reader's registers alone. -/
theorem exec_sameOutsideReader {i : Instr} {s t u : State} (h : exec i s = .next t) (hsame : SameOutsideReader s u) :
    ∃ v, exec i u = .next v ∧ SameOutsideReader t v := by
  obtain ⟨hcond, x, hx, rfl⟩ := exec_cases h
  rw [← hsame.ctx] at hcond
  obtain ⟨v, hv⟩ := (exec_runs i u).1 hcond
  obtain ⟨-, y, hy, rfl⟩ := exec_cases hv
  have hentry : i.cls = .lit ∨ i.cls = .ref → x = y := by
    intro hk
    have htab : u.tab = s.tab := by rw [hsame]
    have hread := hy hk
    rw [tabRead_congr htab, hx hk] at hread
    exact Option.some.inj hread
  exact ⟨_, hv, classEffect_congr hentry i.code s ▸ classEffect_sameOutsideReader hsame i.cls i.code y⟩

/-! ## The packer's schedule -/

/-- The packer's `w`, `L` and `first` are the decoder's width, table length and empty `PREV` (R51). -/
structure InStep (p : PackState) (s : State) : Prop where
  width : p.width = s.width
  tlen : p.tlen = s.tlen
  first : p.first = s.prev.isEmpty

/-- At reset both start at 9 bits, 258 slots and no `PREV` (R24, R51). -/
theorem inStep_start (bytes : ByteString) (s : State) : InStep PackState.start (startDecode bytes s) :=
  ⟨rfl, rfl, rfl⟩

/-- The schedule does not look at the reader. -/
theorem inStep_of_sameOutsideReader {p : PackState} {s u : State} (h : InStep p s) (hsame : SameOutsideReader s u) :
    InStep p u := by
  rw [SameOutsideReader] at hsame
  exact ⟨by rw [hsame]; exact h.width, by rw [hsame]; exact h.tlen, by rw [hsame]; exact h.first⟩

/-- The packer's update after a code is the decoder's, as long as the run goes on. -/
theorem inStep_after {p : PackState} {s t : State} {c : Nat} (h : InStep p s) (hinv : s.EngineInv)
    (heffect : CodeEffect s c t) (hrun : t.status = .run) : InStep (p.after c) t := by
  obtain ⟨hwidth, htlen, hfirst⟩ := h
  cases heffect with
  | clear hc =>
    have hafter : p.after c = PackState.start := by simp [PackState.after, hc]
    exact hafter ▸ ⟨rfl, rfl, rfl⟩
  | endOfData hc => cases hrun
  | corrupt cause hraised => cases hrun
  | first b hc hprev =>
    have hlt : c < 256 := hc ▸ b.isLt
    have hafter : p.after c = { p with first := false } := by
      simp [PackState.after, hfirst, hprev, show c ≠ 256 by omega, show c ≠ 257 by omega]
    exact hafter ▸ ⟨hwidth, htlen, rfl⟩
  | append x hx hprev hroom hc hclr hend =>
    obtain ⟨hne, -⟩ := chunk_bounds hinv hprev hx
    have hafter : p.after c = ⟨widthOf (s.tlen + 1), s.tlen + 1, false⟩ := by
      simp [PackState.after, hfirst, htlen, hprev, hclr, hend]
    rw [hafter]
    exact ⟨by simp [indexCode], by simp [indexCode], by simp [indexCode, hne]⟩

/-! ## Reading what was packed -/

/-- A code whose bits stand at the cursor is read, and decoded where it decodes without a stream (R73). -/
theorem step_of_bits_at_cursor {s : State} (h : s.ReaderInv) (hrun : s.status = .run) {c : Nat} {i : Instr}
    (hdecode : decodeCode s.ctx c = .ok i) (hbits : bitsOfNat s.width.bits c <+: (bitsOfBytes s.input).drop s.cursor) :
    ∃ u, step s = exec i u ∧ SameOutsideReader s u ∧ BitsTaken s.width.bits s u := by
  obtain ⟨hlo, hhi⟩ := bits_bounds s.width
  obtain ⟨u, hread⟩ := readBits_of_prefix h (by simp; omega) (by simp; omega) hbits
  have hfits : c < 2 ^ s.width.bits := (decodeCode_eq_ok_iff.1 hdecode).1
  have hlaw := readBits_width_streamLaw h s.width
  rw [length_bitsOfNat, natOfBits_bitsOfNat, Nat.mod_eq_of_lt hfits] at hread
  rw [hread] at hlaw
  have hsame := readBits_width_sameOutsideReader hread
  exact ⟨u, step_eq_exec hrun hread (by rwa [hsame.ctx]), hsame, hlaw.2⟩

/-- A code handed to the decoder is decoded and run in a running state, and the other codes after it. -/
theorem feedCodes_cons {c : Nat} {cs : List Nat} {s t : State} (h : feedCodes (c :: cs) s = some t) :
    s.status = .run ∧ ∃ i s', decodeCode s.ctx c = .ok i ∧ exec i s = .next s' ∧ feedCodes cs s' = some t := by
  simp only [feedCodes] at h
  split at h
  · cases h
  · rename_i hrun
    split at h
    · rename_i i hdecode
      split at h
      · rename_i s' hexec
        exact ⟨not_not.1 hrun, i, s', hdecode, hexec, h⟩
      all_goals cases h
    · cases h

/-- The bits after those that have been taken stand at the new cursor. -/
theorem prefix_drop_of_append_prefix {a b l : List Bool} {k : Nat} (h : a ++ b <+: l.drop k) :
    b <+: l.drop (k + a.length) := by
  have hdrop := h.drop a.length
  rwa [List.drop_left, List.drop_drop] at hdrop

/-- A decoder at the bits of a code, its engine in step with the packer's schedule, does with it what one that is handed
the code does, and stands after it, in step again. -/
theorem step_of_packed_code {s s' u : State} {c : Nat} {i : Instr} {p : PackState} (hsame : SameOutsideReader s u)
    (hinv : u.Inv) (hrun : u.status = .run) (hstep : InStep p u) (hdecode : decodeCode u.ctx c = .ok i)
    (hexec : exec i s = .next s') (hbits : bitsOfNat p.width.bits c <+: (bitsOfBytes u.input).drop u.cursor) :
    ∃ v, step u = .next v ∧ SameOutsideReader s' v ∧ v.input = u.input ∧ v.cursor = u.cursor + p.width.bits ∧
      (v.status = .run → InStep (p.after c) v) := by
  rw [hstep.width] at hbits ⊢
  obtain ⟨r, hnext, hread, htaken⟩ := step_of_bits_at_cursor hinv.reader hrun hdecode hbits
  obtain ⟨v, hv, hsame'⟩ := exec_sameOutsideReader hexec (hsame.trans hread)
  have heffect : CodeEffect r c v := code_of_decodeCode hdecode ▸ codeEffect_of_exec hv
  obtain ⟨hinput, hipos, -, hbpos, -⟩ := codeEffect_reader heffect
  have hr := inv_of_sameOutsideReader hread htaken.reader hinv
  exact ⟨v, hnext.trans hv, hsame', hinput.trans hread.input, (cursor_congr hipos hbpos).trans htaken.cursor,
    inStep_after (inStep_of_sameOutsideReader hstep hread) hr.engine heffect⟩

/-- A decoder at packed codes, its engine in step with the packer's schedule, takes the steps of one that is handed the
codes, and stands at the end of them. Once the run has ended no code is left, so the schedule no longer matters. -/
theorem runSteps_of_feedCodes {codes : List Nat} {p : PackState} {s t u : State}
    (hfeed : feedCodes codes s = some t) (hsame : SameOutsideReader s u) (hinv : u.Inv)
    (hpack : u.status = .run → InStep p u)
    (hbits : packedBits p codes <+: (bitsOfBytes u.input).drop u.cursor) :
    SameOutsideReader t (runSteps codes.length u) ∧
      (runSteps codes.length u).cursor = u.cursor + (packedBits p codes).length := by
  induction codes generalizing p s u with
  | nil =>
    obtain rfl : s = t := Option.some.inj hfeed
    exact ⟨hsame, rfl⟩
  | cons c cs ih =>
    obtain ⟨hrun, i, s', hdecode, hexec, hrest⟩ := feedCodes_cons hfeed
    rw [← hsame.status] at hrun
    rw [← hsame.ctx] at hdecode
    obtain ⟨v, hnext, hsame', hinput, hcursor, hpack'⟩ := step_of_packed_code hsame hinv hrun (hpack hrun) hdecode hexec
      ((List.prefix_append _ _).trans hbits)
    have hbits' : packedBits (p.after c) cs <+: (bitsOfBytes v.input).drop v.cursor := by
      rw [hinput, hcursor]
      simpa using prefix_drop_of_append_prefix hbits
    obtain ⟨hend, hendCursor⟩ := ih hrest hsame' (stepKeepsInvariant u v hinv hnext) hpack' hbits'
    simp only [List.length_cons, runSteps, hnext]
    exact ⟨hend, by rw [hendCursor, hcursor]; simp [packedBits, Nat.add_assoc]⟩

/-- Settles O53: at reset the packer and the decoder are in step, and the packed bits stand at cursor 0. -/
theorem packedCodesAreReadBack : Obligations.PackedCodesAreReadBack := by
  intro codes t hfeed
  have hbits := prefix_bitsOfBytes_packBits (packedBits PackState.start codes)
  obtain ⟨hsame, hcursor⟩ := runSteps_of_feedCodes hfeed (.refl _) (inv_startDecode _ _)
    (fun _ => inStep_start _ _) hbits
  exact ⟨hsame, by simpa [State.cursor] using hcursor⟩

end Sys2Proof.Proofs
end

section
/-! SUPPORT. A whole `read_bits(n)` (R52 to R59): its passes in arithmetic form, what a successful one has pulled and
accumulated from every state, and the stream law of one that starts between steps. -/

namespace Sys2Proof.Proofs

open Sys2Proof Sys2Proof.Machine Sys2Proof.Claims

/-! ## Which numbers of bits are a form -/

/-- `read_bits` of a form is the loop of R52. -/
theorem readBits_of_form {n : Nat} (h : 1 ≤ n ∧ n ≤ 32) (s : State) : readBits n s = readLoop (unread s) n 0 s :=
  if_pos h

/-- `read_bits` refuses exactly the numbers of bits that are no form (R58): the loop itself refuses nothing. -/
theorem readBits_eq_notAForm_iff (n : Nat) (s : State) : readBits n s = .notAForm ↔ ¬ (1 ≤ n ∧ n ≤ 32) := by
  by_cases h : 1 ≤ n ∧ n ≤ 32
  · obtain ⟨-, -, hloop⟩ := readLoop_sameOutsideReader (unread s) n 0 s
    rw [readBits_of_form h]
    exact iff_of_false hloop (not_not.2 h)
  · exact iff_of_true (if_neg h) h

/-- A value is answered by the loop, so only for a form. -/
theorem readBits_eq_value_iff {n v : Nat} {s t : State} :
    readBits n s = .value v t ↔ (1 ≤ n ∧ n ≤ 32) ∧ readLoop (unread s) n 0 s = .value v t := by
  by_cases h : 1 ≤ n ∧ n ≤ 32
  · simp [readBits_of_form h, h]
  · simp [(readBits_eq_notAForm_iff n s).2 h, h]

/-- `EndOfStream` is raised by the loop, so only for a form. -/
theorem readBits_eq_endOfStream_iff {n : Nat} {s t : State} :
    readBits n s = .endOfStream t ↔ (1 ≤ n ∧ n ≤ 32) ∧ readLoop (unread s) n 0 s = .endOfStream t := by
  by_cases h : 1 ≤ n ∧ n ≤ 32
  · simp [readBits_of_form h, h]
  · simp [(readBits_eq_notAForm_iff n s).2 h, h]

/-- Settles O13: the loop refuses nothing, and each width is a number of bits that is a form. -/
theorem readOutsideRangeRefused : Obligations.ReadOutsideRangeRefused := by
  refine ⟨fun n s => ?_, fun f => ?_⟩
  · rw [readBits_eq_notAForm_iff]
    omega
  · cases f <;> decide

/-! ## The passes in arithmetic form -/

/-- The finishing pass (R53), its shifts and masks written as arithmetic. -/
theorem readLoop_finish_arith {m : Nat} {s : State} (h : m ≤ 8 - s.bpos) (rest : ByteString) (v : Nat) :
    readLoop rest m v s =
      .value (v * 2 ^ m + s.buf.toNat / 2 ^ (8 - s.bpos - m) % 2 ^ m) (setBpos (s.bpos + m) s) := by
  rw [readLoop_finish h, shiftLeft_or_and_mask, Nat.shiftRight_eq_div_pow]

/-- The continuing pass (R54), its shift and mask written as arithmetic. -/
theorem readLoop_continue_arith {m : Nat} {s : State} (h : 8 - s.bpos < m) (b : Byte) (rest : ByteString) (v : Nat) :
    readLoop (b :: rest) m v s =
      readLoop rest (m - (8 - s.bpos)) (v * 2 ^ (8 - s.bpos) + s.buf.toNat % 2 ^ (8 - s.bpos)) (takeByte b s) := by
  rw [readLoop_continue (by omega), shiftLeft_or_and_mask]

/-- Settles O8: the finishing pass in its arithmetic form. -/
theorem finishingPassTakesHighBits : Obligations.FinishingPassTakesHighBits :=
  fun _ rest _ v _ hfin => readLoop_finish_arith hfin rest v

/-- Induction over the passes of a loop that answers the value `x` in `t`: the last one finishes, each one before it
continues. -/
theorem readLoop_value_induction {x : Nat} {t : State} {motive : Nat → Nat → State → Prop}
    (finish : ∀ m v s, m ≤ 8 - s.bpos → x = v * 2 ^ m + s.buf.toNat / 2 ^ (8 - s.bpos - m) % 2 ^ m →
      t = setBpos (s.bpos + m) s → motive m v s)
    (continues : ∀ m v s b, 8 - s.bpos < m →
      motive (m - (8 - s.bpos)) (v * 2 ^ (8 - s.bpos) + s.buf.toNat % 2 ^ (8 - s.bpos)) (takeByte b s) → motive m v s)
    {rest : ByteString} {m v : Nat} {s : State} (h : readLoop rest m v s = .value x t) : motive m v s := by
  by_cases hfin : m ≤ 8 - s.bpos
  · rw [readLoop_finish_arith hfin] at h
    cases h
    exact finish m v s hfin rfl rfl
  · cases rest with
    | nil => rw [readLoop_exhausted hfin] at h; cases h
    | cons b rest =>
      have hmore : 8 - s.bpos < m := by omega
      rw [readLoop_continue_arith hmore] at h
      exact continues m v s b hmore (readLoop_value_induction finish continues h)

/-! ## The bytes pulled and the size of the result, from every state -/

/-- The pulls of a read of `m` bits of which `r` are buffered (R54). -/
def pullCount (m r : Nat) : Nat := if m ≤ r then 0 else (m - r + 7) / 8

/-- A continuing pass makes one pull and leaves a whole byte buffered for the bits still needed. -/
theorem pullCount_continue {m r : Nat} (h : r < m) : pullCount m r = 1 + pullCount (m - r) 8 := by
  unfold pullCount
  split_ifs <;> omega

/-- A loop that answers a value has made `pullCount` pulls. -/
theorem readLoop_value_ipos {rest : ByteString} {m v x : Nat} {s t : State} (h : readLoop rest m v s = .value x t) :
    t.ipos = s.ipos + pullCount m (8 - s.bpos) := by
  refine readLoop_value_induction (motive := fun m _ s => t.ipos = s.ipos + pullCount m (8 - s.bpos)) ?_ ?_ h
  · rintro m v s hfin - rfl
    simp [pullCount, hfin]
  · intro m v s b hmore ih
    rw [ih, pullCount_continue hmore]
    simp [Nat.add_assoc]

/-- `m` bits appended below `v` leave `v` above them. -/
theorem append_bits_div (v y m : Nat) : (v * 2 ^ m + y % 2 ^ m) / 2 ^ m = v := by
  have hlt : y % 2 ^ m < 2 ^ m := Nat.mod_lt y (Nat.two_pow_pos m)
  rw [Nat.mul_comm, Nat.mul_add_div (Nat.two_pow_pos m), Nat.div_eq_of_lt hlt, Nat.add_zero]

/-- The bits a loop adds stand below those it has: without them the result is the old one again (R57). -/
theorem readLoop_value_div {rest : ByteString} {m v x : Nat} {s t : State} (h : readLoop rest m v s = .value x t) :
    x / 2 ^ m = v := by
  refine readLoop_value_induction (motive := fun m v _ => x / 2 ^ m = v) ?_ ?_ h
  · rintro m v s - rfl -
    exact append_bits_div v _ m
  · intro m v s b hmore ih
    calc x / 2 ^ m
      _ = x / 2 ^ (m - (8 - s.bpos)) / 2 ^ (8 - s.bpos) := by
        rw [Nat.div_div_eq_div_mul, ← pow_add, Nat.sub_add_cancel hmore.le]
      _ = v := by rw [ih, append_bits_div]

/-- Settles O9: the continuing pass in its arithmetic form, and the pulls of a loop that answers a value. -/
theorem continuingPassAndPullCount : Obligations.ContinuingPassAndPullCount := by
  refine ⟨fun s b rest m v hmore => readLoop_continue_arith hmore b rest v, fun s t n v hread => ?_⟩
  obtain ⟨⟨hlo, hhi⟩, hloop⟩ := readBits_eq_value_iff.1 hread
  have hipos := readLoop_value_ipos hloop
  refine ⟨hipos, ?_⟩
  unfold pullCount at hipos
  split at hipos <;> omega

/-- Settles O12: nothing is accumulated before the loop. -/
theorem readBitsResultFits : Obligations.ReadBitsResultFits := by
  intro s t n v hread
  obtain ⟨-, hloop⟩ := readBits_eq_value_iff.1 hread
  exact (Nat.div_eq_zero_iff_lt (Nat.two_pow_pos n)).1 (readLoop_value_div hloop)

/-! ## A read between steps -/

/-- A read that answers a value leaves all but the reader's registers (R56). -/
theorem readBits_value_sameOutsideReader {n v : Nat} {s t : State} (h : readBits n s = .value v t) :
    SameOutsideReader s t := by
  obtain ⟨-, hloop⟩ := readBits_eq_value_iff.1 h
  obtain ⟨hvalue, -, -⟩ := readLoop_sameOutsideReader (unread s) n 0 s
  exact hvalue v t hloop

/-- A read that raises `EndOfStream` leaves all but the reader's registers (R56). -/
theorem readBits_endOfStream_sameOutsideReader {n : Nat} {s t : State} (h : readBits n s = .endOfStream t) :
    SameOutsideReader s t := by
  obtain ⟨-, hloop⟩ := readBits_eq_endOfStream_iff.1 h
  obtain ⟨-, hend, -⟩ := readLoop_sameOutsideReader (unread s) n 0 s
  exact hend t hloop

/-- A value answered between steps is the next field of the stream. -/
theorem readBits_value_law {n v : Nat} {s t : State} (h : s.ReaderInv) (hread : readBits n s = .value v t) :
    v = streamField s.input s.cursor n ∧ BitsTaken n s t := by
  obtain ⟨⟨hlo, hhi⟩, -⟩ := readBits_eq_value_iff.1 hread
  have hlaw := readBits_streamLaw h hlo hhi
  rw [hread] at hlaw
  obtain ⟨hv, htaken⟩ := hlaw
  exact ⟨by simpa using hv, htaken⟩

/-- `EndOfStream` raised between steps is the end of the stream. -/
theorem readBits_endOfStream_law {n : Nat} {s t : State} (h : s.ReaderInv) (hread : readBits n s = .endOfStream t) :
    StreamEnded n s t := by
  obtain ⟨⟨hlo, hhi⟩, -⟩ := readBits_eq_endOfStream_iff.1 hread
  have hlaw := readBits_streamLaw h hlo hhi
  rwa [hread] at hlaw

/-- With enough bits left `read_bits` answers a value (R55). -/
theorem readBits_value_of_enough {n : Nat} {s : State} (h : s.ReaderInv) (hn : 1 ≤ n ∧ n ≤ 32)
    (henough : s.cursor + n ≤ 8 * s.inputLength) : ∃ v t, readBits n s = .value v t := by
  cases hread : readBits n s with
  | value v t => exact ⟨v, t, rfl⟩
  | endOfStream t => have := (readBits_endOfStream_law h hread).short; omega
  | notAForm => exact absurd hn ((readBits_eq_notAForm_iff n s).1 hread)

/-- With fewer bits left `read_bits` raises `EndOfStream` (R55). -/
theorem readBits_endOfStream_of_short {n : Nat} {s : State} (h : s.ReaderInv) (hn : 1 ≤ n ∧ n ≤ 32)
    (hshort : 8 * s.inputLength < s.cursor + n) : ∃ t, readBits n s = .endOfStream t := by
  cases hread : readBits n s with
  | value v t => have := (readBits_value_law h hread).2.enough; omega
  | endOfStream t => exact ⟨t, rfl⟩
  | notAForm => exact absurd hn ((readBits_eq_notAForm_iff n s).1 hread)

/-- With bits taken, the registers are the cursor's, rounded up to whole bytes. -/
theorem registers_of_bitsTaken {n : Nat} {s t : State} (hn : 1 ≤ n) (h : BitsTaken n s t) :
    0 < t.ipos ∧ t.ipos = (s.cursor + n + 7) / 8 ∧ t.bpos = 8 - (8 * t.ipos - (s.cursor + n)) := by
  obtain ⟨-, hcursor, hreader, hpos⟩ := h
  have hbpos := hreader.bpos_le
  have hfresh := hreader.nothing_pulled
  have hceil := ipos_eq_ceil_cursor hreader hpos
  rw [hcursor] at hceil
  simp only [State.cursor] at *
  omega

/-- Between steps `BUF` follows from `IPOS`, once a byte has been pulled. -/
theorem buf_eq_of_ipos_eq {s t : State} (hs : s.ReaderInv) (ht : t.ReaderInv) (hinput : t.input = s.input)
    (hipos : t.ipos = s.ipos) (hpos : 0 < t.ipos) : t.buf = s.buf := by
  have hlast := ht.buf_is_last hpos
  rw [hinput, hipos, hs.buf_is_last (hipos ▸ hpos)] at hlast
  exact (Option.some.inj hlast).symm

/-- Settles O7: the stream law fixes the result and the cursor, and with a bit of `BUF` consumed the cursor fixes the
registers. -/
theorem readBitsFollowsStreamLaw : Obligations.ReadBitsFollowsStreamLaw := by
  intro s n hinv hlo hhi
  refine ⟨fun henough => ?_, fun hshort => ?_⟩
  · obtain ⟨v, t, hread⟩ := readBits_value_of_enough hinv ⟨hlo, hhi⟩ henough
    have hsame := readBits_value_sameOutsideReader hread
    obtain ⟨rfl, htaken⟩ := readBits_value_law hinv hread
    obtain ⟨hpulled, hipos, hbpos⟩ := registers_of_bitsTaken hlo htaken
    exact ⟨t, hread, htaken.cursor, hipos, hbpos, fun hdvd => by omega, fun _ => htaken.reader.buf_is_last hpulled,
      fun hsameIpos => buf_eq_of_ipos_eq hinv htaken.reader hsame.input hsameIpos hpulled, htaken.reader, hsame⟩
  · obtain ⟨t, hread⟩ := readBits_endOfStream_of_short hinv ⟨hlo, hhi⟩ hshort
    obtain ⟨-, hipos, hbpos, hreader⟩ := readBits_endOfStream_law hinv hread
    exact ⟨t, hread, hipos, hbpos, hreader, readBits_endOfStream_sameOutsideReader hread⟩

/-- Settles O11: a read leaves all but the reader's registers, and the byte in `BUF` holds the last bit taken. -/
theorem readBitsTouchesOnlyTheReader : Obligations.ReadBitsTouchesOnlyTheReader := by
  intro s t n v
  refine ⟨fun h => h.elim readBits_value_sameOutsideReader readBits_endOfStream_sameOutsideReader,
    fun hinv hread => ?_⟩
  obtain ⟨⟨hlo, -⟩, -⟩ := readBits_eq_value_iff.1 hread
  obtain ⟨-, htaken⟩ := readBits_value_law hinv hread
  obtain ⟨hpulled, hipos, hbpos⟩ := registers_of_bitsTaken hlo htaken
  exact ⟨htaken.bpos_pos, by omega, by omega⟩

/-- With every bit consumed and every byte pulled, `read_bits` raises `EndOfStream` and changes nothing (R55, D8). -/
theorem readBits_of_nothing_left {n : Nat} {s : State} (hn : 1 ≤ n ∧ n ≤ 32) (hipos : s.ipos = s.inputLength)
    (hbpos : s.bpos = 8) : readBits n s = .endOfStream s := by
  have hunread : unread s = [] := List.drop_eq_nil_of_le hipos.ge
  have hsame : setBpos 8 s = s := by simp [setBpos, ← hbpos]
  rw [readBits_of_form hn, hunread, readLoop_exhausted (by omega), hsame]

/-- After `EndOfStream` `BUF` is the last byte of the input (R55 as read in log 16). With no input nothing was pulled,
and it is as before. -/
theorem buf_of_endOfStream {n : Nat} {s t : State} (h : s.ReaderInv) (hn : 1 ≤ n ∧ n ≤ 32)
    (hread : readBits n s = .endOfStream t) : t.buf = s.input.getLastD s.buf := by
  obtain ⟨-, hipos, -, hreader⟩ := readBits_endOfStream_law h hread
  rcases Nat.eq_zero_or_pos s.inputLength with hempty | hnonempty
  · have hfresh : s.ipos = 0 := Nat.eq_zero_of_le_zero (h.ipos_le.trans hempty.le)
    rw [readBits_of_nothing_left hn (hfresh.trans hempty.symm) (h.nothing_pulled hfresh)] at hread
    cases hread
    simp [List.eq_nil_of_length_eq_zero hempty]
  · have hlast := hreader.buf_is_last (by omega)
    have hinput := (readBits_endOfStream_sameOutsideReader hread).input
    rw [hinput, hipos, State.inputLength, ← List.getLast?_eq_getElem?] at hlast
    rw [List.getLastD_eq_getLast?, hlast]
    rfl

/-- Settles O10: the stream law tells the two outcomes apart, and after the end no bit is left. -/
theorem exhaustionExactlyWhenShort : Obligations.ExhaustionExactlyWhenShort := by
  intro s n hinv hlo hhi
  refine ⟨⟨?_, fun hshort => readBits_endOfStream_of_short hinv ⟨hlo, hhi⟩ (by omega)⟩, fun t hread => ?_⟩
  · rintro ⟨t, hread⟩
    have := (readBits_endOfStream_law hinv hread).short
    omega
  · have hsame := readBits_endOfStream_sameOutsideReader hread
    obtain ⟨-, hipos, hbpos, -⟩ := readBits_endOfStream_law hinv hread
    refine ⟨?_, fun m hlo' hhi' => readBits_of_nothing_left ⟨hlo', hhi'⟩ ?_ hbpos⟩
    · rw [hsame, hipos, hbpos, buf_of_endOfStream hinv ⟨hlo, hhi⟩ hread]
    · rw [hipos, State.inputLength, State.inputLength, hsame.input]

end Sys2Proof.Proofs
end

section
/-! SUPPORT. The results of the instructions (41_engine.md R61 to R69), each as an equation for the whole next state: where
its row's condition holds an instruction answers the effect of its class, and that is one record update. -/

namespace Sys2Proof.Proofs

open Sys2Proof Sys2Proof.Machine Sys2Proof.Claims

/-! ## The shared operations as record updates -/

/-- A completed code writes the output and the observer's records alone (R73, R80). -/
theorem completeCode_eq (w : Format) (c : Nat) (x : ByteString) (s : State) :
    completeCode w c x s = { s with out := s.out ++ x, trace := traced s ⟨c, w, x, s.tlen⟩ } := rfl

/-- With an empty chunk the output stays (R61, R62). -/
theorem completeCode_nil (w : Format) (c : Nat) (s : State) :
    completeCode w c [] s = { s with trace := traced s ⟨c, w, [], s.tlen⟩ } := by
  rw [completeCode_eq, List.append_nil]

/-- An append writes the engine alone, and the new width is that of the new table length (R34, R68). -/
theorem appendEntry_eq (e x : ByteString) (s : State) :
    appendEntry e x s = { s with tab := s.tab ++ [e], width := widthOf (s.tlen + 1), prev := x } := by
  rw [← tlen_of_tab_append (tabAppend_tab e s)]
  rfl

/-- A code that appends, completed (R65, R66). -/
theorem completeCode_appendEntry (w : Format) (c : Nat) (e x : ByteString) (s : State) :
    completeCode w c x (appendEntry e x s) = { s with
      tab := s.tab ++ [e], width := widthOf (s.tlen + 1), prev := x, out := s.out ++ x,
      trace := traced s ⟨c, w, x, s.tlen + 1⟩ } := by
  rw [completeCode_eq, appendEntry_tlen, appendEntry_eq]
  rfl

/-- `TLEN` in numbers (R15). -/
theorem tlen_eq (s : State) : s.tlen = 258 + s.tab.length := rfl

/-- An index with an entry is below `TLEN` (R18). -/
theorem lt_tlen_of_tabRead {s : State} {c : Nat} {x : ByteString} (h : tabRead c s = some x) : c < s.tlen := by
  by_contra hge
  rw [tabRead_of_tlen_le (not_lt.1 hge)] at h
  cases h

/-! ## Running an instruction of a class -/

/-- Where its row's condition holds, an instruction answers the effect of its class, with the entry its code names. -/
theorem exec_of_cond {i : Instr} {s : State} {k : CodeClass} {x : ByteString} (hk : i.cls = k)
    (hcond : k.cond s.ctx i.code = true) (hx : k = .lit ∨ k = .ref → tabRead i.code s = some x) :
    exec i s = .next (classEffect k i.code x s) := by
  subst hk
  obtain ⟨t, ht⟩ := (exec_runs i s).1 hcond
  obtain ⟨-, y, hy, rfl⟩ := exec_cases ht
  have hentry : i.cls = .lit ∨ i.cls = .ref → y = x := fun h => Option.some.inj ((hy h).symm.trans (hx h))
  rw [ht, classEffect_congr hentry]

/-- The other classes read no entry. -/
theorem exec_of_cond_no_entry {i : Instr} {s : State} {k : CodeClass} (hk : i.cls = k)
    (hcond : k.cond s.ctx i.code = true) (hno : ¬ (k = .lit ∨ k = .ref)) :
    exec i s = .next (classEffect k i.code [] s) :=
  exec_of_cond hk hcond fun h => absurd h hno

/-- CLR has one code value in every format (R61). -/
theorem code_of_clr {i : Instr} (h : i.cls = .clr) : i.code = 256 := by
  cases i
  case clrW9 | clrW10 | clrW11 | clrW12 => rfl
  all_goals cases h

/-- END has one code value in every format (R62). -/
theorem code_of_endOfData {i : Instr} (h : i.cls = .endOfData) : i.code = 257 := by
  cases i
  case endW9 | endW10 | endW11 | endW12 => rfl
  all_goals cases h

/-- The operand of LIT is a byte (R45). -/
theorem code_of_lit {i : Instr} (h : i.cls = .lit) : i.code < 256 := by
  cases i
  case litW9 b | litW10 b | litW11 b | litW12 b => exact b.isLt
  all_goals cases h

/-! ## The control codes -/

/-- Settles O16: CLR is selected everywhere, and its record shows the table length after it. -/
theorem clearCodeResult : Obligations.ClearCodeResult := by
  intro i s hk
  rw [exec_of_cond_no_entry hk (decide_eq_true (code_of_clr hk)) (by decide), classEffect, completeCode_nil]
  rfl

/-- Settles O17: END is selected everywhere. -/
theorem endCodeResult : Obligations.EndCodeResult := by
  intro i s hk
  rw [exec_of_cond_no_entry hk (decide_eq_true (code_of_endOfData hk)) (by decide), classEffect, completeCode_nil]
  rfl

/-! ## The first code -/

/-- Settles O18: between steps the empty `PREV` says that the table is cleared. -/
theorem firstCodeResult : Obligations.FirstCodeResult := by
  intro b s hprev
  refine ⟨whenSelected_eq_next.2 ⟨?_, rfl⟩, fun hinv => ?_⟩
  · have hle : b.toNat ≤ 255 := Nat.le_of_lt_succ b.isLt
    simp [CodeClass.cond, hprev, hle]
  · simp [State.tlen, hinv.first_cleared hprev]

/-- Settles O19: the row's condition is the hypothesis. -/
theorem firstNotLiteralResult : Obligations.FirstNotLiteralResult := by
  intro c s hprev hge
  exact whenSelected_eq_next.2 ⟨by simp [CodeClass.cond, hprev, hge], rfl⟩

/-! ## The codes that append -/

/-- LIT and REF append `PREV` and the first byte of the entry their code names. -/
theorem exec_index {i : Instr} {s : State} (hk : i.cls = .lit ∨ (i.cls = .ref ∧ 258 ≤ i.code)) (hprev : s.prev ≠ [])
    (hlt : i.code < s.tlen) (hroom : s.tlen < 4096) {x : ByteString} (hx : tabRead i.code s = some x) :
    exec i s = .next (indexCode i.code x s) := by
  rcases hk with hlit | ⟨href, hge⟩
  · have hle : i.code ≤ 255 := Nat.le_of_lt_succ (code_of_lit hlit)
    exact exec_of_cond hlit (by simp [CodeClass.cond, hprev, hle, hroom]) fun _ => hx
  · exact exec_of_cond href (by simp [CodeClass.cond, hprev, hge, hlt, hroom]) fun _ => hx

/-- A fixed entry is the byte of its index (R16). -/
theorem tabRead_of_lt_256 {c : Nat} (h : c < 256) (s : State) : tabRead c s = some [BitVec.ofNat 8 c] := by
  simp [tabRead, h, literalEntry]

/-- Settles O20: between steps the index names a fixed entry or an appended one, and neither is empty. -/
theorem indexCodeResult : Obligations.IndexCodeResult := by
  intro i s hk hprev hlt hroom
  refine ⟨fun b y hx => ?_, fun hlit => tabRead_of_lt_256 (code_of_lit hlit) s, fun hinv => ?_⟩
  · rw [exec_index hk hprev hlt hroom hx, indexCode, completeCode_appendEntry]
    rfl
  · obtain ⟨x, hx⟩ : ∃ x, tabRead i.code s = some x := by
      rcases hk with hlit | ⟨-, hge⟩
      · exact ⟨_, tabRead_of_lt_256 (code_of_lit hlit) s⟩
      · exact tabRead_isSome hge hlt
    obtain ⟨b, y, rfl⟩ := List.exists_cons_of_length_pos (tabRead_length hinv hx).1
    exact ⟨b, y, hx⟩

/-- Settles O21: the KwKwK string is `PREV` and its own first byte. -/
theorem kwkCodeResult : Obligations.KwkCodeResult := by
  intro i s b p hk hprev hcode hroom
  have hstring : kwkString s = b :: p ++ [b] := by simp [kwkString, extend, hprev]
  rw [exec_of_cond_no_entry hk (by simp [CodeClass.cond, hprev, hcode, hroom]) (by decide), classEffect,
    completeCode_appendEntry, hstring]

/-! ## The illegal codes -/

/-- Settles O22: the row's condition is the hypothesis. -/
theorem badRefResult : Obligations.BadRefResult := by
  intro i s hk hprev hgt
  exact exec_of_cond_no_entry hk (by simp [CodeClass.cond, hprev, hgt]) (by decide)

/-- With a full table, at 12 bits, no code is at or above `TLEN` (R67). -/
theorem not_selected_of_full {s : State} (hwidth : s.width = .w12) (hfull : s.tlen = 4096) {i : Instr}
    (hk : i.cls = .kwk ∨ i.cls = .badRef) : i.selected s.ctx = false := by
  rw [← Bool.not_eq_true]
  intro hsel
  simp only [Instr.selected, Bool.and_eq_true, decide_eq_true_eq] at hsel
  obtain ⟨hformat, hcond⟩ := hsel
  have hfits := code_lt_two_pow_bits i
  rw [hformat, show s.ctx.width = .w12 from hwidth, Format.bits] at hfits
  rcases hk with hk | hk
  · simp [hk, CodeClass.cond, hfull] at hcond
  · simp [hk, CodeClass.cond, hfull] at hcond
    omega

/-- Settles O23: a 12-bit value is below 4096, which is `TLEN`; a full table forces 12 bits. -/
theorem tableFullResult : Obligations.TableFullResult := by
  intro c s hprev hfull hclr hend
  refine ⟨whenSelected_eq_next.2 ⟨?_, rfl⟩, ⟨_, rfl⟩, ⟨_, rfl⟩, fun hinv => ?_⟩
  · have hle : c.toNat ≤ 4096 := c.isLt.le
    simp [CodeClass.cond, hprev, hfull, hle, hclr, hend]
  · have hwidth : s.width = .w12 := by rw [hinv.width_forced, hfull]; rfl
    exact ⟨hwidth, fun i hk => not_selected_of_full hwidth hfull hk⟩

/-! ## The frame of each class -/

/-- The classes that neither clear nor append leave the table and the width. -/
theorem classEffect_table_frame {k : CodeClass} (hclr : k ≠ .clr) (happ : ¬ Appends k) (c : Nat) (x : ByteString)
    (s : State) : (classEffect k c x s).tab = s.tab ∧ (classEffect k c x s).width = s.width := by
  cases k
  case clr => exact absurd rfl hclr
  case lit | ref | kwk => simp [Appends] at happ
  all_goals exact ⟨rfl, rfl⟩

/-- The appending classes put one entry at the end of the table, and the width follows. -/
theorem classEffect_append {k : CodeClass} (happ : Appends k) (c : Nat) (x : ByteString) (s : State) :
    ∃ e, (classEffect k c x s).tab = s.tab ++ [e] ∧ (classEffect k c x s).width = widthOf (s.tlen + 1) := by
  rcases happ with rfl | rfl | rfl <;>
    exact ⟨_, rfl, by simp only [classEffect, indexCode, completeCode_appendEntry]⟩

/-- The classes that do not produce a new `PREV` leave it. -/
theorem classEffect_prev_frame {k : CodeClass} (hclr : k ≠ .clr) (hfirst : k ≠ .first) (happ : ¬ Appends k) (c : Nat)
    (x : ByteString) (s : State) : (classEffect k c x s).prev = s.prev := by
  cases k
  case clr => exact absurd rfl hclr
  case first => exact absurd rfl hfirst
  case lit | ref | kwk => simp [Appends] at happ
  all_goals rfl

/-- The control codes and the illegal ones output nothing. -/
theorem classEffect_out_frame {k : CodeClass} (h : k = .clr ∨ k = .endOfData ∨ Illegal k) (c : Nat) (x : ByteString)
    (s : State) : (classEffect k c x s).out = s.out := by
  rcases h with rfl | rfl | rfl | rfl | rfl <;> simp [classEffect]

/-- Only the illegal classes write `CAUSE` and `ECODE` (R90). -/
theorem classEffect_cause_frame {k : CodeClass} (h : ¬ Illegal k) (c : Nat) (x : ByteString) (s : State) :
    (classEffect k c x s).cause = s.cause ∧ (classEffect k c x s).ecode = s.ecode := by
  cases k
  case firstNotLiteral | badRef | tableFull => simp [Illegal] at h
  all_goals exact ⟨rfl, rfl⟩

/-- Only the illegal classes and END write `STATUS`. -/
theorem classEffect_status_frame {k : CodeClass} (h : ¬ Illegal k) (hend : k ≠ .endOfData) (c : Nat) (x : ByteString)
    (s : State) : (classEffect k c x s).status = s.status := by
  cases k
  case firstNotLiteral | badRef | tableFull => simp [Illegal] at h
  case endOfData => exact absurd rfl hend
  all_goals rfl

/-- The illegal classes give the observer no record (R80). -/
theorem classEffect_trace_frame {k : CodeClass} (h : Illegal k) (c : Nat) (x : ByteString) (s : State) :
    (classEffect k c x s).trace = s.trace := by
  rcases h with rfl | rfl | rfl <;> rfl

/-- Settles O25: the next state is the effect of the class, and each clause is that class's frame. -/
theorem instructionFrame : Obligations.InstructionFrame := by
  intro i s t hexec
  have hreader := codeEffect_reader (codeEffect_of_exec hexec)
  obtain ⟨-, x, -, rfl⟩ := exec_cases hexec
  refine ⟨hreader, fun hclr happ => classEffect_table_frame hclr happ _ x s, fun happ => ?_,
    fun hclr hfirst happ => classEffect_prev_frame hclr hfirst happ _ x s, fun h => classEffect_out_frame h _ x s,
    fun h => classEffect_cause_frame h _ x s, fun h hend => classEffect_status_frame h hend _ x s,
    fun h => classEffect_trace_frame h _ x s⟩
  obtain ⟨e, htab, -⟩ := classEffect_append happ i.code x s
  exact ⟨tlen_of_tab_append htab, fun _ hj => tabRead_ne_of_tab_append htab hj⟩

/-- `width_of` changes exactly where the table length meets a threshold (R68). -/
theorem widthOf_succ (n : Nat) :
    widthOf (n + 1) = if n + 1 = 511 then .w10 else if n + 1 = 1023 then .w11 else if n + 1 = 2047 then .w12
      else widthOf n := by
  simp only [widthOf, Config.thresh10, Config.thresh11, Config.thresh12]
  grind

/-- Settles O26: an append makes the width that of the next table length. -/
theorem widthChangesAtThresholds : Obligations.WidthChangesAtThresholds := by
  intro i s t hinv hexec
  obtain ⟨-, x, -, rfl⟩ := exec_cases hexec
  refine ⟨fun happ => ?_, fun happ hclr => (classEffect_table_frame hclr happ i.code x s).2⟩
  obtain ⟨e, htab, hwidth⟩ := classEffect_append happ i.code x s
  rw [hwidth, tlen_of_tab_append htab, hinv.width_forced]
  exact ⟨widthOf_succ s.tlen, rfl⟩

end Sys2Proof.Proofs
end

section
/-! SUPPORT. The pseudocode of R60 and R73: the tests of `feed`, in their order, find the effect that decoding and
dispatching has. -/

namespace Sys2Proof.Proofs

open Sys2Proof Sys2Proof.Machine Sys2Proof.Claims

/-! ## The domain of `feed` -/

/-- Every value of 12 bits is a form of `feed` (R60). -/
theorem feed_ne_notAForm {c : Nat} (h : c < 4096) (s : State) : feed c s ≠ .notAForm := by
  unfold feed
  rw [if_neg (Nat.not_le.2 h)]
  cases tabRead c s <;> split_ifs <;> simp

/-- Settles O55: outside 0..4095 the first test refuses, and no width has a code there. -/
theorem feedOutsideRangeRefused : Obligations.FeedOutsideRangeRefused := by
  refine ⟨fun c s => ⟨fun hform => ?_, fun hwide => if_pos hwide⟩, fun f s t c hread => ?_⟩
  · by_contra hle
    exact feed_ne_notAForm (by omega) s hform
  · have hfits : c < 2 ^ f.bits := readBitsResultFits s t _ c hread
    have hmax : 2 ^ f.bits ≤ 2 ^ 12 := Nat.pow_le_pow_right (by decide) (bits_bounds f).2
    omega

/-! ## The driver's part -/

/-- What the driver of R73 does after `feed` of a code `c`, read at width `w`, has ended in the state `s`. -/
def driveFeed (w : Format) (c : Nat) (s : State) : FeedOutcome → Result
  | .notAForm => .refused .feedOutOfRange
  | .corrupt cause c => .next (raiseCorrupt cause c s)
  | .chunk x t =>
    .next (if c = 257 then setStatus .doneEnd (completeCode w c x t) else completeCode w c x t)

/-- The pseudocode feeds the code it reads. -/
theorem pseudoStep_of_value {s u : State} {c : Nat} (hread : readBits s.width.bits s = .value c u) :
    pseudoStep s = driveFeed s.width c u (feed c u) := by
  simp only [pseudoStep, hread]
  cases feed c u <;> rfl

/-- The chunk of a code that is no END is emitted and the run goes on. -/
theorem driveFeed_chunk {c : Nat} (hend : c ≠ 257) (w : Format) (x : ByteString) (s t : State) :
    driveFeed w c s (.chunk x t) = .next (completeCode w c x t) := by
  rw [driveFeed, if_neg hend]

/-! ## The tests of `feed` -/

section
variable {s : State} {c : Nat}

/-- CLEAR is the first test (R61). -/
theorem feed_clear (s : State) : feed 256 s = .chunk [] (clearEngine s) := rfl

/-- END is the second (R62). -/
theorem feed_end (s : State) : feed 257 s = .chunk [] s := rfl

/-- A byte with no `PREV` (R63). -/
theorem feed_first (b : Byte) (hprev : s.prev = []) :
    feed b.toNat s = .chunk (literalEntry b) (setPrev (literalEntry b) s) := by
  have hlt := b.isLt
  simp [feed, hprev, literalEntry, show ¬ 4096 ≤ b.toNat by omega, show b.toNat ≠ 256 by omega,
    show b.toNat ≠ 257 by omega, show ¬ 258 ≤ b.toNat by omega]

/-- The tests that raise `CorruptStream` (R64, R67, R69). -/
theorem feed_raised {cause : Cause} (hraised : RaisedBy s c cause) (hfits : c < 4096) :
    feed c s = .corrupt cause c := by
  have htlen : 258 ≤ s.tlen := by simp [State.tlen]
  cases cause with
  | noCause => exact hraised.elim
  | firstNotLiteral =>
    obtain ⟨hprev, hge⟩ := hraised
    simp [feed, hprev, hge, hfits, show c ≠ 256 by omega, show c ≠ 257 by omega]
  | badRef =>
    obtain ⟨hprev, hgt⟩ := hraised
    simp [feed, hprev, hgt, hfits, show c ≠ 256 by omega, show c ≠ 257 by omega]
  | tableFull =>
    obtain ⟨hprev, -, hfull, hclr, hend⟩ := hraised
    simp [feed, hprev, hfull, hclr, hend, hfits.not_ge, hfits.not_gt]

/-- The tests that append: an index with an entry (R65), and otherwise the next index (R66). -/
theorem feed_append {x : ByteString} (hx : ChunkOf s c x) (hprev : s.prev ≠ []) (hroom : s.tlen < 4096)
    (hc : c ≤ s.tlen) (hclr : c ≠ 256) (hend : c ≠ 257) :
    feed c s = .chunk x (appendEntry (extend s.prev x) x s) := by
  have hwide : ¬ 4096 ≤ c := by omega
  rcases hx with hread | ⟨rfl, rfl⟩
  · have hlt := lt_tlen_of_tabRead hread
    simp only [feed, hwide, hclr, hend, hprev, not_lt.2 hc, hroom.ne, hlt, hread, if_true, if_false]
    rfl
  · simp only [feed, hwide, hclr, hend, hprev, hroom.ne, lt_irrefl, if_false]
    rw [extend_kwkString hprev]
    rfl

/-- The driver of R73 with `feed` leaves the state of the code's effect. -/
theorem driveFeed_of_codeEffect {t : State} (h : CodeEffect s c t) (hfits : c < 4096) :
    driveFeed s.width c s (feed c s) = .next t := by
  cases h with
  | clear hc => subst hc; rw [feed_clear, driveFeed_chunk (by decide)]
  | endOfData hc => subst hc; rfl
  | first b hc hprev =>
    have hend : b.toNat ≠ 257 := by have := b.isLt; omega
    subst hc
    rw [feed_first b hprev, driveFeed_chunk hend]
  | corrupt cause hraised => rw [feed_raised hraised hfits, driveFeed]
  | append x hx hprev hroom hc hclr hend =>
    rw [feed_append hx hprev hroom hc hclr hend, driveFeed_chunk hend, indexCode]

end

/-- Settles O30: both read the same code, the machine's instruction for it runs, and its effect is that of `feed`. -/
theorem stepIsThePseudocode : Obligations.StepIsThePseudocode := by
  intro s hinv hrun
  cases hread : readBits s.width.bits s with
  | notAForm => simp only [step, pseudoStep, hrun, hread]
  | endOfStream u => simp only [step, pseudoStep, hrun, hread]; rfl
  | value c u =>
    have hsame := readBits_value_sameOutsideReader hread
    have hwidth : u.width = s.width := by rw [hsame]
    have hu := inv_of_sameOutsideReader hsame (readBits_value_law hinv.reader hread).2.reader hinv
    have hfits : c < 2 ^ u.width.bits := hwidth ▸ readBitsResultFits s u _ c hread
    obtain ⟨i, hdecode, t, hexec⟩ := decode_exec_goes hu.engine hfits
    have heffect : CodeEffect u c t := code_of_decodeCode hdecode ▸ codeEffect_of_exec hexec
    calc step s = exec i u := step_eq_exec hrun hread hdecode
      _ = .next t := hexec
      _ = driveFeed u.width c u (feed c u) :=
        (driveFeed_of_codeEffect heffect (Nat.lt_succ_of_le (feedOutsideRangeRefused.2 _ s u c hread))).symm
      _ = pseudoStep s := by rw [pseudoStep_of_value hread, hwidth]

end Sys2Proof.Proofs
end

section
/-! SUPPORT. R72: every effect of a code keeps each appended entry linked to an earlier code, since the entry it appends is
`PREV`, which has a code already, and one byte more. -/

namespace Sys2Proof.Proofs

open Sys2Proof Sys2Proof.Machine Sys2Proof.Claims

/-- The strings below a bound depend on the table alone. -/
theorem stringBelow_congr {s t : State} (htab : t.tab = s.tab) {bound : Nat} {x : ByteString}
    (h : s.StringBelow bound x) : t.StringBelow bound x := by
  obtain ⟨c, hc, hread⟩ := h
  exact ⟨c, hc, (tabRead_congr htab c).trans hread⟩

/-- The link invariant depends on the table and `PREV` alone. -/
theorem linked_congr {s t : State} (h : s.Linked) (htab : t.tab = s.tab) (hprev : t.prev = s.prev) : t.Linked := by
  have htlen : t.tlen = s.tlen := by simp only [State.tlen, htab]
  refine ⟨fun k x hx => ?_, fun hne => ?_⟩
  · rw [htab] at hx
    exact stringBelow_congr htab (h.entries k x hx)
  · rw [hprev] at hne ⊢
    rw [htlen]
    exact stringBelow_congr htab (h.previous hne)

/-- A one-byte string is that of its literal code (R16). -/
theorem stringBelow_literal (s : State) (b : Byte) : s.StringBelow s.tlen (literalEntry b) := by
  refine ⟨b.toNat, ?_, tabRead_literal b s⟩
  have hlt := b.isLt
  have htlen := tlen_eq s
  omega

/-- An append leaves the strings of the codes below the old `TLEN` as they are (R34). -/
theorem stringBelow_of_tab_append {s t : State} {e : ByteString} (htab : t.tab = s.tab ++ [e]) {bound : Nat}
    (hbound : bound ≤ s.tlen) {x : ByteString} (h : s.StringBelow bound x) : t.StringBelow bound x := by
  obtain ⟨c, hc, hread⟩ := h
  exact ⟨c, hc, (tabRead_ne_of_tab_append htab (by omega)).trans hread⟩

/-- An appended entry less its last byte is the old `PREV`. -/
theorem dropLast_extend {p x : ByteString} (hx : x ≠ []) : (extend p x).dropLast = p := by
  obtain ⟨b, rest, rfl⟩ := List.exists_cons_of_ne_nil hx
  simp [extend]

/-- After an append each entry is still linked, the new one by way of `PREV`. -/
theorem entries_linked_of_append {s t : State} (h : s.Linked) (hprev : s.prev ≠ []) {x : ByteString} (hx : x ≠ [])
    (htab : t.tab = s.tab ++ [extend s.prev x]) (k : Nat) (y : ByteString) (hy : t.tab[k]? = some y) :
    t.StringBelow (258 + k) y.dropLast := by
  rw [htab, List.getElem?_append] at hy
  split at hy
  · rename_i hk
    have hbound : 258 + k ≤ s.tlen := by have htlen := tlen_eq s; omega
    exact stringBelow_of_tab_append htab hbound (h.entries k y hy)
  · rename_i hk
    obtain ⟨hzero, rfl⟩ : k - s.tab.length = 0 ∧ extend s.prev x = y := by
      simpa [List.getElem?_singleton] using hy
    have hindex : 258 + k = s.tlen := by have htlen := tlen_eq s; omega
    rw [hindex, dropLast_extend hx]
    exact stringBelow_of_tab_append htab le_rfl (h.previous hprev)

/-- The chunk of an appending code, which becomes `PREV`, is the string of a code: of its own, as the KwKwK code names the
entry it appends (R66). -/
theorem chunk_stringBelow {s t : State} {c : Nat} {x : ByteString} (hx : ChunkOf s c x) (hprev : s.prev ≠ [])
    (htab : t.tab = s.tab ++ [extend s.prev x]) : t.StringBelow t.tlen x := by
  rw [tlen_of_tab_append htab]
  rcases hx with hread | ⟨-, rfl⟩
  · have hlt := lt_tlen_of_tabRead hread
    exact ⟨c, by omega, (tabRead_ne_of_tab_append htab hlt.ne).trans hread⟩
  · refine ⟨s.tlen, by omega, ?_⟩
    rw [tabRead_tlen_of_tab_append htab, extend_kwkString hprev]

/-- Each effect of a code keeps the links. -/
theorem codeEffect_linked {s t : State} {c : Nat} (h : CodeEffect s c t) (hinv : s.EngineInv) (hlinked : s.Linked) :
    t.Linked := by
  cases h with
  | clear hc => exact linked_of_cleared rfl rfl
  | endOfData hc => exact linked_congr hlinked rfl rfl
  | corrupt cause hraised => exact linked_congr hlinked rfl rfl
  | first b hc hprev =>
    exact ⟨fun k x hx => stringBelow_congr rfl (hlinked.entries k x hx),
      fun _ => stringBelow_congr rfl (stringBelow_literal s b)⟩
  | append x hx hprev hroom hc hclr hend =>
    obtain ⟨hne, -⟩ := chunk_bounds hinv hprev hx
    exact ⟨entries_linked_of_append hlinked hprev hne rfl, fun _ => chunk_stringBelow hx hprev rfl⟩

/-- Settles O41: neither a read nor the end of the stream touches table or `PREV`, and each effect of a code keeps the
links. -/
theorem stepKeepsTableLinked : Obligations.StepKeepsTableLinked := by
  intro s t hinv hlinked hstep
  obtain ⟨-, u, hsame, hend⟩ := step_effect hinv.reader hstep
  have hu : u.Linked := linked_congr hlinked (by rw [hsame]) (by rw [hsame])
  rcases hend with ⟨-, rfl⟩ | ⟨htaken, heffect⟩
  · exact linked_congr hu rfl rfl
  · exact codeEffect_linked heffect (inv_of_sameOutsideReader hsame htaken.reader hinv).engine hu

end Sys2Proof.Proofs
end

section
/-! SUPPORT. R71: codes that each name the entry they are about to append build the longest entries. -/

namespace Sys2Proof.Proofs

open Sys2Proof Sys2Proof.Machine Sys2Proof.Claims

/-- The entries of a run of `m` KwKwK codes after the byte `b`: from two copies of it to `m + 1`. -/
def kwkEntries (m : Nat) (b : Byte) : List ByteString := (List.range m).map fun k => List.replicate (k + 2) b

/-- The engine after `m` KwKwK codes that follow the byte `b`. -/
structure KwkBuilt (m : Nat) (b : Byte) (s : State) : Prop where
  tab : s.tab = kwkEntries m b
  prev : s.prev = List.replicate (m + 1) b
  width : s.width = widthOf (258 + m)

theorem KwkBuilt.tlen {m : Nat} {b : Byte} {s : State} (h : KwkBuilt m b s) : s.tlen = 258 + m := by
  simp [State.tlen, h.tab, kwkEntries]

/-- One code more adds its entry at the end. -/
theorem kwkEntries_succ (m : Nat) (b : Byte) : kwkEntries (m + 1) b = kwkEntries m b ++ [List.replicate (m + 2) b] := by
  simp [kwkEntries, List.range_succ]

/-- Below a full table the next index can be written in the width in force (R42). -/
theorem lt_two_pow_widthOf {n : Nat} (h : n < 4096) : n < 2 ^ (widthOf n).bits := by
  simp only [widthOf, Config.thresh10, Config.thresh11, Config.thresh12]
  split_ifs <;> simp only [Format.bits] <;> omega

/-- Where there is a `PREV` and room, at the width that the table length forces, the code `TLEN` is that of a KWK
instruction (R66). -/
theorem decodeCode_tlen {s : State} (hprev : s.prev ≠ []) (hroom : s.tlen < 4096) (hwidth : s.width = widthOf s.tlen) :
    ∃ i, decodeCode s.ctx s.tlen = .ok i ∧ i.cls = .kwk ∧ i.code = s.tlen := by
  have htlen : 258 ≤ s.tlen := by simp [State.tlen]
  have hok : s.ctx.ok = true := ctx_ok_iff.2 ⟨htlen, hroom.le, hwidth, by simp [hprev]⟩
  have hfits : s.tlen < 2 ^ s.width.bits := hwidth ▸ lt_two_pow_widthOf hroom
  obtain ⟨i, hi⟩ := decodeCode_isOk hok hfits
  have hcond : CodeClass.kwk.cond s.ctx s.tlen = true := by simp [CodeClass.cond, hprev, hroom]
  exact ⟨i, hi, (format_cls_of_decodeCode hi).2.trans (classify_of_cond htlen hcond), code_of_decodeCode hi⟩

/-- One KwKwK code completes and builds the next entry. -/
theorem kwkBuilt_step {m : Nat} {b : Byte} {s : State} (h : KwkBuilt m b s) (hm : m < 3838) :
    ∃ i t, decodeCode s.ctx s.tlen = .ok i ∧ exec i s = .next t ∧ KwkBuilt (m + 1) b t := by
  have htlen := h.tlen
  have hprev : s.prev = b :: List.replicate m b := h.prev
  have hroom : s.tlen < 4096 := by omega
  obtain ⟨i, hdecode, hk, hcode⟩ := decodeCode_tlen (by simp [hprev]) hroom (by rw [htlen, h.width])
  have hstring : b :: List.replicate m b ++ [b] = List.replicate (m + 2) b := by
    rw [← List.replicate_succ, ← List.replicate_succ']
  refine ⟨i, _, hdecode, kwkCodeResult i s b _ hk hprev hcode hroom, ?_⟩
  exact ⟨by simp only [hstring, h.tab, kwkEntries_succ], hstring, by simp only [htlen, Nat.add_assoc]⟩

/-- A run of `n` KwKwK codes goes on from `m` to `m + n` of them. -/
theorem kwkRun_of_kwkBuilt {n m : Nat} {b : Byte} {s : State} (h : KwkBuilt m b s) (hle : m + n ≤ 3838) :
    ∃ t, kwkRun n s = some t ∧ KwkBuilt (m + n) b t := by
  induction n generalizing m s with
  | zero => exact ⟨s, rfl, h⟩
  | succ n ih =>
    obtain ⟨i, u, hdecode, hexec, hu⟩ := kwkBuilt_step h (by omega)
    obtain ⟨t, hrun, ht⟩ := ih hu (by omega)
    refine ⟨t, by simp only [kwkRun, hdecode, hexec, hrun], ?_⟩
    rwa [Nat.add_right_comm, Nat.add_assoc] at ht

/-- Settles O28: a cleared engine with a one-byte `PREV` is where the run starts. -/
theorem kwkRunReachesTheLengthBound : Obligations.KwkRunReachesTheLengthBound := by
  intro n s b hn htab hprev hwidth
  have hstart : KwkBuilt 0 b s := ⟨htab, hprev, hwidth⟩
  obtain ⟨t, hrun, ht⟩ := kwkRun_of_kwkBuilt (n := n) hstart (by omega)
  rw [Nat.zero_add] at ht
  exact ⟨t, hrun, ht.tlen, ht.tab, ht.prev, ht.width⟩

end Sys2Proof.Proofs
end

section
/-! SUPPORT. The driver's loop (R74, R78): where it stops, what it keeps, and that every decode ends within the bound. -/

namespace Sys2Proof.Proofs

open Sys2Proof Sys2Proof.Machine Sys2Proof.Claims

/-! ## The loop -/

/-- The loop takes a step that goes. -/
theorem runSteps_of_next {s t : State} (h : step s = .next t) (fuel : Nat) :
    runSteps (fuel + 1) s = runSteps fuel t := by
  simp only [runSteps, h]

/-- The loop leaves a state from which no step goes. -/
theorem runSteps_of_stuck {s : State} (h : ¬ Goes (step s)) (fuel : Nat) : runSteps fuel s = s := by
  cases fuel with
  | zero => rfl
  | succ fuel =>
    cases hstep : step s with
    | next t => exact absurd ⟨t, hstep⟩ h
    | fault e => simp only [runSteps, hstep]
    | refused e => simp only [runSteps, hstep]

/-- The loop leaves a state with a terminal status (R79). -/
theorem runSteps_of_not_run {s : State} (h : s.status ≠ .run) (fuel : Nat) : runSteps fuel s = s := by
  refine runSteps_of_stuck ?_ fuel
  rintro ⟨t, ht⟩
  rw [step_of_not_run h] at ht
  cases ht

/-- Settles O35: a terminal status is where no step is defined, so the loop stops there. -/
theorem terminalStatesAreAbsorbing : Obligations.TerminalStatesAreAbsorbing :=
  fun _ h => ⟨step_of_not_run h, runSteps_of_not_run h⟩

/-- The loop's steps one after another. -/
theorem runSteps_add (m n : Nat) (s : State) : runSteps (m + n) s = runSteps n (runSteps m s) := by
  induction m generalizing s with
  | zero => rw [Nat.zero_add]; rfl
  | succ m ih =>
    by_cases hgoes : Goes (step s)
    · obtain ⟨t, ht⟩ := hgoes
      rw [Nat.add_right_comm, runSteps_of_next ht, runSteps_of_next ht, ih]
    · simp only [runSteps_of_stuck hgoes]

/-- What each step keeps, the loop keeps. -/
theorem runSteps_keeps {P : State → Prop} (hkeep : ∀ s t, P s → step s = .next t → P t) {s : State} (h : P s)
    (fuel : Nat) : P (runSteps fuel s) := by
  induction fuel generalizing s with
  | zero => exact h
  | succ fuel ih =>
    by_cases hgoes : Goes (step s)
    · obtain ⟨t, ht⟩ := hgoes
      rw [runSteps_of_next ht]
      exact ih (hkeep s t h ht)
    · rwa [runSteps_of_stuck hgoes]

theorem inv_runSteps {s : State} (h : s.Inv) (fuel : Nat) : (runSteps fuel s).Inv :=
  runSteps_keeps stepKeepsInvariant h fuel

/-- Between steps the run has ended or a step goes (R79, R84). -/
theorem goes_or_not_run {s : State} (h : s.Inv) : Goes (step s) ∨ s.status ≠ .run :=
  (em (s.status = .run)).imp_left (runningStepAlwaysGoes s h)

/-! ## The bound of R78 -/

/-- The cursor is in the input (R12). -/
theorem cursor_le {s : State} (h : s.ReaderInv) : s.cursor ≤ 8 * s.inputLength := by
  have hipos : s.ipos ≤ s.inputLength := h.ipos_le
  simp only [State.cursor]
  omega

/-- No step writes the input (R9). -/
theorem step_input {s t : State} (h : s.Inv) (hstep : step s = .next t) : t.input = s.input := by
  obtain ⟨-, u, hsame, ⟨-, rfl⟩ | ⟨-, heffect⟩⟩ := step_effect h.reader hstep
  · exact hsame.input
  · exact (codeEffect_reader heffect).1.trans hsame.input

theorem runSteps_input {s : State} (h : s.Inv) (fuel : Nat) : (runSteps fuel s).input = s.input := by
  have hkeep : ∀ u v : State, (u.Inv ∧ u.input = s.input) → step u = .next v → v.Inv ∧ v.input = s.input :=
    fun u v ⟨hinv, hinput⟩ hstep => ⟨stepKeepsInvariant u v hinv hstep, (step_input hinv hstep).trans hinput⟩
  exact (runSteps_keeps hkeep ⟨h, rfl⟩ fuel).2

/-- A step after which the run goes on has read a code, of at least 9 bits (R41). -/
theorem cursor_add_nine_le {s t : State} (h : s.Inv) (hstep : step s = .next t) (hrun : t.status = .run) :
    s.cursor + 9 ≤ t.cursor := by
  obtain ⟨hcursor, -⟩ := stepAdvancesByTheOldWidth s t h hstep (by simp [hrun])
  have hbits := (bits_bounds s.width).1
  omega

/-- As long as the run goes on, each step of the loop has consumed at least 9 bits. -/
theorem cursor_runSteps {s : State} (h : s.Inv) {fuel : Nat} (hrun : (runSteps fuel s).status = .run) :
    s.cursor + 9 * fuel ≤ (runSteps fuel s).cursor := by
  induction fuel generalizing s with
  | zero => exact le_rfl
  | succ fuel ih =>
    rcases goes_or_not_run h with ⟨t, ht⟩ | hended
    · rw [runSteps_of_next ht] at hrun ⊢
      have htrun : t.status = .run := by
        by_contra hended
        rw [runSteps_of_not_run hended] at hrun
        exact hended hrun
      have hcode := cursor_add_nine_le h ht htrun
      have hrest := ih (stepKeepsInvariant s t h ht) hrun
      omega
    · rw [runSteps_of_not_run hended] at hrun
      exact absurd hrun hended

theorem inv_decodeRun (bytes : ByteString) : (decodeRun bytes).Inv := inv_runSteps (inv_startDecode _ _) _

/-- A decode has ended after the bound's steps: they would have consumed more bits than there are (R78). -/
theorem decodeRun_status_ne_run (bytes : ByteString) : (decodeRun bytes).status ≠ .run := by
  intro hrun
  have hstart := inv_startDecode bytes State.reset
  have hconsumed : (startDecode bytes State.reset).cursor + 9 * stepBound bytes.length ≤ (decodeRun bytes).cursor :=
    cursor_runSteps hstart hrun
  have hinput : (decodeRun bytes).input = bytes := runSteps_input hstart _
  have hle := cursor_le (inv_decodeRun bytes).reader
  rw [State.inputLength, hinput] at hle
  simp only [stepBound] at hconsumed
  omega

/-- Wherever the loop has ended, that is the final state of the decode: more steps change nothing. -/
theorem decodeRun_of_ended {bytes : ByteString} {fuel : Nat}
    (h : (runSteps fuel (startDecode bytes State.reset)).status ≠ .run) :
    decodeRun bytes = runSteps fuel (startDecode bytes State.reset) := by
  calc decodeRun bytes = runSteps fuel (decodeRun bytes) :=
        (runSteps_of_not_run (decodeRun_status_ne_run bytes) fuel).symm
    _ = runSteps (fuel + stepBound bytes.length) (startDecode bytes State.reset) := by
        rw [decodeRun, ← runSteps_add, Nat.add_comm]
    _ = runSteps fuel (startDecode bytes State.reset) := by rw [runSteps_add, runSteps_of_not_run h]

/-- Settles O50: each step of a run that goes on consumes at least 9 bits, and reset forgets all but the build. -/
theorem everyDecodeTerminates : Obligations.EveryDecodeTerminates := by
  refine ⟨fun bytes => ⟨decodeRun_status_ne_run bytes, fun fuel s hfuel hbuild => ?_⟩,
    fun s t h hstep => cursor_add_nine_le h hstep⟩
  have hstart : startDecode bytes s = startDecode bytes State.reset := by simp only [startDecode, hbuild]
  obtain ⟨more, rfl⟩ := Nat.exists_eq_add_of_le hfuel
  rw [hstart, runSteps_add]
  exact runSteps_of_not_run (decodeRun_status_ne_run bytes) more

end Sys2Proof.Proofs
end

section
/-! SUPPORT. What the codes do not look at (R80, R83): a change of the state that leaves the engine and that every effect of
a code carries along makes no difference to what instructions and steps do; and CLEAR forgets the engine itself. -/

namespace Sys2Proof.Proofs

open Sys2Proof Sys2Proof.Machine Sys2Proof.Claims

/-! ## Instructions -/

/-- A change of the state that leaves what codes depend on, and that every effect of a code carries along. -/
structure CarriedByCodes (f : State → State) : Prop where
  ctx : ∀ s, (f s).ctx = s.ctx
  tab : ∀ s, (f s).tab = s.tab
  effect : ∀ k c x s, classEffect k c x (f s) = f (classEffect k c x s)

/-- Such a change can be made before an instruction or after it. -/
theorem CarriedByCodes.exec {f : State → State} (hf : CarriedByCodes f) (i : Instr) (s : State) :
    exec i (f s) = mapNext f (exec i s) := by
  cases hcond : i.cls.cond s.ctx i.code with
  | true =>
    obtain ⟨t, ht⟩ := (exec_runs i s).1 hcond
    obtain ⟨-, x, hx, rfl⟩ := exec_cases ht
    have hx' : i.cls = .lit ∨ i.cls = .ref → tabRead i.code (f s) = some x :=
      fun hk => (tabRead_congr (hf.tab s) i.code).trans (hx hk)
    rw [ht, exec_of_cond rfl (by rwa [hf.ctx]) hx', hf.effect, mapNext]
  | false => rw [(exec_runs i s).2 hcond, (exec_runs i (f s)).2 (by rwa [hf.ctx]), mapNext]

/-! ## The observer -/

/-- No code looks at the observer. -/
theorem carriedByCodes_eraseObserver : CarriedByCodes eraseObserver :=
  ⟨fun _ => rfl, fun _ => rfl, fun k _ _ _ => by cases k <;> rfl⟩

/-- A function on states under the outcome of a read. -/
def mapRead (f : State → State) : ReadOutcome → ReadOutcome
  | .value v s => .value v (f s)
  | .endOfStream s => .endOfStream (f s)
  | .notAForm => .notAForm

/-- The reader does not look at the observer. -/
theorem readLoop_eraseObserver (rest : ByteString) (m v : Nat) (s : State) :
    readLoop rest m v (eraseObserver s) = mapRead eraseObserver (readLoop rest m v s) := by
  by_cases hfin : m ≤ 8 - s.bpos
  · rw [readLoop_finish hfin, readLoop_finish (s := eraseObserver s) hfin]
    rfl
  · cases rest with
    | nil =>
      rw [readLoop_exhausted hfin, readLoop_exhausted (s := eraseObserver s) hfin]
      rfl
    | cons b rest =>
      rw [readLoop_continue hfin, readLoop_continue (s := eraseObserver s) hfin]
      exact readLoop_eraseObserver rest _ _ (takeByte b s)

/-- Neither does a step (R80). -/
theorem step_eraseObserver (s : State) : step (eraseObserver s) = mapNext eraseObserver (step s) := by
  by_cases hrun : s.status = .run
  · have hrun' : (eraseObserver s).status = .run := hrun
    have hread : readBits (eraseObserver s).width.bits (eraseObserver s) =
        mapRead eraseObserver (readBits s.width.bits s) := by
      rw [readBits_width, readBits_width]
      exact readLoop_eraseObserver (unread s) _ 0 s
    simp only [step, hrun, hrun', hread]
    cases readBits s.width.bits s with
    | value c u =>
      simp only [mapRead, carriedByCodes_eraseObserver.ctx]
      cases decodeCode u.ctx c with
      | ok i => exact carriedByCodes_eraseObserver.exec i u
      | error e => rfl
    | endOfStream u => rfl
    | notAForm => rfl
  · rw [step_of_not_run hrun, step_of_not_run (s := eraseObserver s) hrun, mapNext]

/-- Nor the loop. -/
theorem runSteps_eraseObserver (fuel : Nat) (s : State) :
    runSteps fuel (eraseObserver s) = eraseObserver (runSteps fuel s) := by
  induction fuel generalizing s with
  | zero => rfl
  | succ fuel ih =>
    have hstep := step_eraseObserver s
    cases hs : step s <;> rw [hs] at hstep <;> simp only [runSteps, hs, hstep, mapNext, ih]

/-- Settles O47: erasing the observer before a step or after it is the same. -/
theorem observerOnlyWatches : Obligations.ObserverOnlyWatches := by
  intro s t h
  refine ⟨?_, fun fuel => ?_⟩
  · rw [← step_eraseObserver, h, step_eraseObserver]
  · rw [← runSteps_eraseObserver, h, runSteps_eraseObserver]

/-! ## CLEAR -/

/-- What CLR leaves, but for the observer, is the state before it without its engine (R61). -/
theorem exec_clr_eraseObserver {i : Instr} (hk : i.cls = .clr) (s : State) :
    mapNext eraseObserver (exec i s) = .next (eraseEngine s) := by
  rw [clearCodeResult i s hk]
  rfl

/-- Settles O27: what is compared before CLR is all that CLR leaves. -/
theorem clearForgetsTheTable : Obligations.ClearForgetsTheTable := by
  intro i j s t hi hj h
  exact ⟨by rw [exec_clr_eraseObserver hi, exec_clr_eraseObserver hj, h], _, clearCodeResult i s hi⟩

end Sys2Proof.Proofs
end

section
/-! SUPPORT. Decodes of an input and of a longer one (R83): they take the same steps until the shorter input ends within a
code. -/

namespace Sys2Proof.Proofs

open Sys2Proof Sys2Proof.Machine Sys2Proof.Claims

/-! ## More input -/

/-- The state with more input after what it has. -/
def appendInput (y : ByteString) (s : State) : State := { s with input := s.input ++ y }

@[simp] theorem resultOf_appendInput (y : ByteString) (s : State) : resultOf (appendInput y s) = resultOf s := rfl

/-- No code looks at the input. -/
theorem carriedByCodes_appendInput (y : ByteString) : CarriedByCodes (appendInput y) :=
  ⟨fun _ => rfl, fun _ => rfl, fun k _ _ _ => by cases k <;> rfl⟩

/-- With more input a state is still between steps. -/
theorem inv_appendInput {s : State} (h : s.Inv) (y : ByteString) : (appendInput y s).Inv := by
  obtain ⟨⟨hbpos, hipos, hfresh, hlast⟩, hengine, hstatus⟩ := h
  refine ⟨⟨hbpos, hipos.trans (by simp [appendInput]), hfresh, fun hpos => ?_⟩,
    engineInv_congr hengine rfl rfl rfl, statusInv_congr hstatus rfl rfl rfl⟩
  obtain ⟨hlt, -⟩ := List.getElem?_eq_some_iff.1 (hlast hpos)
  exact (List.getElem?_append_left hlt).trans (hlast hpos)

/-- A loop that answers a value answers it with more bytes to pull, too. -/
theorem readLoop_appendInput (y : ByteString) {rest : ByteString} {m v x : Nat} {s t : State}
    (h : readLoop rest m v s = .value x t) :
    readLoop (rest ++ y) m v (appendInput y s) = .value x (appendInput y t) := by
  by_cases hfin : m ≤ 8 - s.bpos
  · rw [readLoop_finish hfin] at h
    cases h
    exact readLoop_finish (s := appendInput y s) hfin _ v
  · cases rest with
    | nil => rw [readLoop_exhausted hfin] at h; cases h
    | cons b rest =>
      rw [readLoop_continue hfin] at h
      rw [List.cons_append, readLoop_continue (s := appendInput y s) hfin]
      exact readLoop_appendInput y (s := takeByte b s) h

/-- A step that does not meet the end of the input is the same with more input; one that does adds no output (R76). -/
theorem step_appendInput {s t : State} (h : s.Inv) (hstep : step s = .next t) (y : ByteString) :
    step (appendInput y s) = .next (appendInput y t) ∨ t.status = .doneEos ∧ t.out = s.out := by
  obtain ⟨hrun, ⟨u, -, hsame, rfl⟩ | ⟨c, u, i, hread, hsame, hdecode, hexec⟩⟩ := step_cases hstep
  · exact .inr ⟨rfl, by rw [hsame]; rfl⟩
  · left
    have hunread : unread (appendInput y s) = unread s ++ y := List.drop_append_of_le_length h.reader.ipos_le
    rw [readBits_width] at hread
    have hread' : readBits s.width.bits (appendInput y s) = .value c (appendInput y u) := by
      rw [readBits_width, hunread, readLoop_appendInput y hread]
    rw [step_eq_exec (s := appendInput y s) hrun hread' (hsame.ctx ▸ hdecode),
      (carriedByCodes_appendInput y).exec, hexec, mapNext]

/-! ## Runs -/

/-- A run that does not meet the end of the input is the same with more input. -/
theorem runSteps_appendInput {s : State} (h : s.Inv) (y : ByteString) {fuel : Nat}
    (hend : (runSteps fuel s).status ≠ .doneEos) :
    runSteps fuel (appendInput y s) = appendInput y (runSteps fuel s) := by
  induction fuel generalizing s with
  | zero => rfl
  | succ fuel ih =>
    rcases goes_or_not_run h with ⟨t, ht⟩ | hended
    · rw [runSteps_of_next ht] at hend ⊢
      rcases step_appendInput h ht y with hsame | ⟨heos, -⟩
      · rw [runSteps_of_next hsame, ih (stepKeepsInvariant s t h ht) hend]
      · rw [runSteps_of_not_run (by simp [heos])] at hend
        exact absurd heos hend
    · rw [runSteps_of_not_run hended, runSteps_of_not_run (s := appendInput y s) hended]

/-- A run's output begins with the output it starts from (R21). -/
theorem out_prefix_runSteps {s : State} (h : s.Inv) (fuel : Nat) : s.out <+: (runSteps fuel s).out := by
  have hkeep : ∀ u v : State, (u.Inv ∧ s.out <+: u.out) → step u = .next v → v.Inv ∧ s.out <+: v.out := by
    rintro u v ⟨hinv, hout⟩ hstep
    obtain ⟨x, hx, -⟩ := outputOnlyGrows u v hinv hstep
    exact ⟨stepKeepsInvariant u v hinv hstep, hx ▸ hout.trans (List.prefix_append _ _)⟩
  exact (runSteps_keeps hkeep ⟨h, List.prefix_rfl⟩ fuel).2

/-- However a run ends, with more input its output is the beginning of what comes out. -/
theorem out_prefix_runSteps_appendInput {s : State} (h : s.Inv) (y : ByteString) (fuel : Nat) :
    (runSteps fuel s).out <+: (runSteps fuel (appendInput y s)).out := by
  induction fuel generalizing s with
  | zero => exact List.prefix_rfl
  | succ fuel ih =>
    rcases goes_or_not_run h with ⟨t, ht⟩ | hended
    · rw [runSteps_of_next ht]
      rcases step_appendInput h ht y with hsame | ⟨heos, hout⟩
      · rw [runSteps_of_next hsame]
        exact ih (stepKeepsInvariant s t h ht)
      · rw [runSteps_of_not_run (by simp [heos]), hout]
        exact out_prefix_runSteps (inv_appendInput h y) (fuel + 1)
    · rw [runSteps_of_not_run hended]
      exact out_prefix_runSteps (inv_appendInput h y) (fuel + 1)

/-! ## Decodes -/

/-- A decode that does not meet the end of its input is the same with more input (R83). -/
theorem decodeStream_append {x : ByteString} (h : (decodeStream x).status ≠ .doneEos) (y : ByteString) :
    decodeStream (x ++ y) = decodeStream x := by
  have hsame : runSteps (stepBound x.length) (startDecode (x ++ y) State.reset) = appendInput y (decodeRun x) :=
    runSteps_appendInput (inv_startDecode x State.reset) y h
  have hended : (appendInput y (decodeRun x)).status ≠ .run := decodeRun_status_ne_run x
  rw [decodeStream, decodeRun_of_ended (hsame ▸ hended), hsame, resultOf_appendInput, decodeStream]

/-- The output of a decode is the beginning of that with more input. -/
theorem decodeStream_out_prefix (x y : ByteString) : (decodeStream x).out <+: (decodeStream (x ++ y)).out := by
  have hbound : 8 * x.length / 9 + 1 ≤ stepBound (x ++ y).length := by
    simp only [stepBound, List.length_append]
    omega
  have hlong : runSteps (stepBound (x ++ y).length) (startDecode x State.reset) = decodeRun x :=
    (everyDecodeTerminates.1 x).2 _ State.reset hbound rfl
  have hprefix := out_prefix_runSteps_appendInput (inv_startDecode x State.reset) y (stepBound (x ++ y).length)
  rwa [hlong] at hprefix

/-- Settles O51: neither ending is that of an exhausted input. -/
theorem decodeIgnoresWhatFollowsTheEnd : Obligations.DecodeIgnoresWhatFollowsTheEnd := by
  intro x y h
  refine decodeStream_append (fun heos => ?_) y
  simp [heos] at h

/-- Settles O52: the whole is the cut input with more after it. -/
theorem truncationYieldsAPrefix : Obligations.TruncationYieldsAPrefix := by
  intro bytes k
  by_cases heos : (decodeStream (bytes.take k)).status = .doneEos
  · right
    obtain ⟨hcause, hecode⟩ := (inv_decodeRun (bytes.take k)).status
    have hnot : (decodeStream (bytes.take k)).status ≠ .errCorrupt := by simp [heos]
    have hprefix := decodeStream_out_prefix (bytes.take k) (bytes.drop k)
    rw [List.take_append_drop] at hprefix
    exact ⟨heos, not_not.1 (mt hcause.2 hnot), hecode hnot, hprefix⟩
  · left
    have hsame := decodeStream_append heos (bytes.drop k)
    rw [List.take_append_drop] at hsame
    exact hsame.symm

end Sys2Proof.Proofs
end

section
/-! SUPPORT. The driver's step (R73): the instruction it runs, its two graceful endings (R75, R76) and what the observer is
given (R80). -/

namespace Sys2Proof.Proofs

open Sys2Proof Sys2Proof.Machine Sys2Proof.Claims

/-! ## The instruction that a step runs -/

/-- The number in the first bits of a bit string, written again, is where the string begins. -/
theorem prefix_of_natOfBits_take {bits : List Bool} {w : Nat} (h : w ≤ bits.length) :
    bitsOfNat w (natOfBits (bits.take w)) <+: bits := by
  have hbits := bitsOfNat_natOfBits (bits.take w)
  rw [List.length_take_of_le h] at hbits
  rw [hbits]
  exact List.take_prefix w bits

/-- Settles O29: the first `WIDTH` bits at the cursor write the code that decodes, and the read takes them. -/
theorem stepRunsTheDecodedInstruction : Obligations.StepRunsTheDecodedInstruction := by
  intro s i rest hinv hrun hdecode
  obtain ⟨henough, hcode, rfl⟩ := decodeBits_eq_ok_iff.1 hdecode
  obtain ⟨u, hstep, hsame, htaken⟩ := step_of_bits_at_cursor hinv hrun hcode (prefix_of_natOfBits_take henough)
  refine ⟨u, hstep, hsame, htaken.cursor, ipos_eq_ceil_cursor htaken.reader htaken.bpos_pos, ?_⟩
  rw [htaken.cursor]
  exact List.drop_drop

/-! ## The graceful endings -/

/-- A step with fewer than `WIDTH` bits left ends the run, with every byte pulled and consumed (R76). -/
theorem step_of_not_codeLeft {s : State} (h : s.ReaderInv) (hrun : s.status = .run) (hshort : ¬ codeLeft s) :
    step s = .next { s with
      status := .doneEos, ipos := s.inputLength, bpos := 8, buf := s.input.getLastD s.buf } := by
  obtain ⟨hlo, hhi⟩ := bits_bounds s.width
  obtain ⟨hends, hstate⟩ := exhaustionExactlyWhenShort s s.width.bits h (by omega) (by omega)
  obtain ⟨u, hread⟩ := hends.2 (by simp only [codeLeft] at hshort; omega)
  obtain ⟨hu, -⟩ := hstate u hread
  simp only [step, hrun, hread, raiseEndOfStream, setStatus]
  rw [hu]

/-- Settles O31: the empty input is the case in which nothing was pulled. -/
theorem exhaustedInputEndsGracefully : Obligations.ExhaustedInputEndsGracefully := by
  refine ⟨fun s => step_of_not_codeLeft, fun s => ?_⟩
  have hshort : ¬ codeLeft (startDecode [] s) := by simp [codeLeft, State.inputLength, Format.bits]
  exact step_of_not_codeLeft (inv_startDecode [] s).reader rfl hshort

/-- END alone ends the run with DONE_END, and touches neither the output nor the engine (R62, R75). -/
theorem codeEffect_doneEnd {s t : State} {c : Nat} (h : CodeEffect s c t) (hrun : s.status = .run) :
    (t.status = .doneEnd ↔ c = 257) ∧
      (t.status = .doneEnd → t.out = s.out ∧ t.tab = s.tab ∧ t.width = s.width ∧ t.prev = s.prev) := by
  cases h with
  | endOfData hc => exact ⟨by simp [hc], fun _ => ⟨by simp, rfl, rfl, rfl⟩⟩
  | clear hc => simp [hc, hrun]
  | first b hc hprev =>
    have hlit : c ≠ 257 := by have := b.isLt; omega
    simp [hlit, hrun]
  | corrupt cause hraised =>
    obtain ⟨⟨-, hend, -⟩, -⟩ := illegalCode_of_raisedBy hraised
    simp [hend]
  | append x hx hprev hroom hc hclr hend =>
    have hstatus : (indexCode c x s).status = .run := hrun
    simp [hend, hstatus]

/-- Settles O33: a step that reads no code ends otherwise, and the cursor of one that reads END is that of its read. -/
theorem doneEndExactlyOnEndCode : Obligations.DoneEndExactlyOnEndCode := by
  intro s t hinv hrun hstep
  have hadvance := stepAdvancesByTheOldWidth s t hinv hstep
  obtain ⟨-, u, hsame, ⟨hended, rfl⟩ | ⟨htaken, heffect⟩⟩ := step_effect hinv.reader hstep
  · have hshort : ¬ codeLeft s := not_le.2 hended.short
    simp [hshort]
  · obtain ⟨hiff, hframe⟩ := codeEffect_doneEnd heffect (hsame.status.trans hrun)
    refine ⟨hiff.trans (and_iff_right htaken.enough).symm, fun hdone => ?_⟩
    obtain ⟨hout, htab, hwidth, hprev⟩ := hframe hdone
    obtain ⟨hcursor, hipos, -⟩ := hadvance (by simp [hdone])
    exact ⟨by rw [hout, hsame], by rw [htab, hsame], by rw [hwidth, hsame], by rw [hprev, hsame], hcursor, hipos⟩

/-! ## The observer's records -/

/-- A code either raises `CorruptStream`, and is not recorded, or completes, and its record is given with the chunk that
is emitted (R80). -/
theorem codeEffect_trace {s t : State} {c : Nat} (h : CodeEffect s c t) (hrun : s.status = .run) :
    (t.status = .errCorrupt ∧ t.trace = s.trace) ∨
      (t.status = .run ∨ t.status = .doneEnd) ∧
        ∃ x, t.out = s.out ++ x ∧ t.trace = traced s ⟨c, s.width, x, t.tlen⟩ := by
  cases h with
  | corrupt cause hraised => exact .inl ⟨rfl, rfl⟩
  | clear hc => exact .inr ⟨.inl hrun, [], rfl, rfl⟩
  | endOfData hc => exact .inr ⟨.inr rfl, [], rfl, rfl⟩
  | first b hc hprev => exact .inr ⟨.inl hrun, literalEntry b, rfl, rfl⟩
  | append x hx hprev hroom hc hclr hend => exact .inr ⟨.inl hrun, x, rfl, rfl⟩

/-- Settles O48: a step that reads no code gives the observer nothing, and of the others only the raising ones do not. -/
theorem observerRecordsCompletedSteps : Obligations.ObserverRecordsCompletedSteps := by
  intro s t hinv hstep
  obtain ⟨hrun, u, hsame, ⟨-, rfl⟩ | ⟨-, heffect⟩⟩ := step_effect hinv.reader hstep
  · exact ⟨by simp, fun _ => by rw [hsame]; rfl⟩
  · have hu : u.hasTrace = s.hasTrace ∧ u.trace = s.trace ∧ u.out = s.out ∧ u.width = s.width := by
      rw [hsame]
      exact ⟨rfl, rfl, rfl, rfl⟩
    obtain ⟨hbuild, hrecords, hout, hwidth⟩ := hu
    rcases codeEffect_trace heffect (hsame.status.trans hrun) with ⟨hcorrupt, htrace⟩ | ⟨hdone, x, hx, htrace⟩
    · exact ⟨by simp [hcorrupt], fun _ => htrace.trans hrecords⟩
    · rw [traced, hbuild, hrecords, hwidth] at htrace
      refine ⟨fun htraced _ => ⟨x, hx.trans (by rw [hout]), by rw [htrace, if_pos htraced]⟩, fun hno => ?_⟩
      have huntraced : s.hasTrace = false := hno.resolve_right (by rcases hdone with h | h <;> simp [h])
      simp [htrace, huntraced]

end Sys2Proof.Proofs
end

section
/-! SUPPORT. The round trip of R83 with the test-only encoder of 95_test_vectors.md section 5: a decoder that is handed the
encoder's codes as they come follows it one entry behind, and has put out all but the string the encoder holds. -/

namespace Sys2Proof.Proofs

open Sys2Proof Sys2Proof.Machine Sys2Proof.Claims

/-! ## Handing over codes -/

/-- A list of codes is handed over in two parts. -/
theorem feedCodes_append {cs : List Nat} {s t : State} (h : feedCodes cs s = some t) (ds : List Nat) :
    feedCodes (cs ++ ds) s = feedCodes ds t := by
  induction cs generalizing s with
  | nil =>
    obtain rfl : s = t := Option.some.inj h
    rfl
  | cons c cs ih =>
    obtain ⟨hrun, i, u, hdecode, hexec, hrest⟩ := feedCodes_cons h
    simp only [List.cons_append, feedCodes, hrun, hdecode, hexec, ih hrest, ne_eq, not_true_eq_false, if_false]

/-- A code has one effect: it is the one that the driver of R73 finds with `feed`. -/
theorem codeEffect_unique {s t u : State} {c : Nat} (hc : c < 4096) (ht : CodeEffect s c t) (hu : CodeEffect s c u) :
    t = u :=
  Host.Outcome.next.inj ((driveFeed_of_codeEffect ht hc).symm.trans (driveFeed_of_codeEffect hu hc))

/-- A code up to `TLEN`, handed over while there is room in the table, is decoded and has its effect. -/
theorem feedCodes_of_codeEffect {s t : State} {c : Nat} (hinv : s.EngineInv) (hrun : s.status = .run)
    (hroom : s.tlen < 4096) (hc : c ≤ s.tlen) (h : CodeEffect s c t) : feedCodes [c] s = some t := by
  have hfits : c < 2 ^ s.width.bits := hinv.width_forced ▸ hc.trans_lt (lt_two_pow_widthOf hroom)
  obtain ⟨i, hdecode, u, hexec⟩ := decode_exec_goes hinv hfits
  have hu : CodeEffect s c u := code_of_decodeCode hdecode ▸ codeEffect_of_exec hexec
  obtain rfl := codeEffect_unique (by omega) h hu
  simp only [feedCodes, hrun, hdecode, hexec, ne_eq, not_true_eq_false, if_false]

/-- A code with a chunk is at most `TLEN` and no control code (R17, R18). -/
theorem code_of_chunkOf {s : State} {c : Nat} {x : ByteString} (h : ChunkOf s c x) :
    c ≤ s.tlen ∧ c ≠ 256 ∧ c ≠ 257 := by
  rcases h with hread | ⟨rfl, -⟩
  · refine ⟨(lt_tlen_of_tabRead hread).le, ?_, ?_⟩ <;> rintro rfl <;> cases hread
  · have htlen := tlen_eq s
    omega

/-! ## The encoder -/

/-- A longer match is held on to. -/
theorem push_of_known {e : EncoderState} {ch : Byte}
    (h : (e.held ++ [ch]).length = 1 ∨ (e.dict.lookup (e.held ++ [ch])).isSome) :
    e.push ch = { e with held := e.held ++ [ch] } :=
  if_pos h

/-- The code of the longest match is written, and its extension by the next byte becomes an entry. -/
theorem push_of_new {e : EncoderState} {ch : Byte}
    (h : ¬ ((e.held ++ [ch]).length = 1 ∨ (e.dict.lookup (e.held ++ [ch])).isSome)) (hroom : e.nextIndex + 1 ≠ 4094) :
    e.push ch = ⟨e.codes ++ [e.codeOf e.held], e.dict ++ [(e.held ++ [ch], e.nextIndex)], e.nextIndex + 1, [ch]⟩ :=
  (if_neg h).trans (if_neg hroom)

/-- With the last index given out the encoder starts over with a CLEAR. -/
theorem push_of_full {e : EncoderState} {ch : Byte}
    (h : ¬ ((e.held ++ [ch]).length = 1 ∨ (e.dict.lookup (e.held ++ [ch])).isSome)) (hfull : e.nextIndex + 1 = 4094) :
    e.push ch = ⟨e.codes ++ [e.codeOf e.held] ++ [256], [], 258, [ch]⟩ :=
  (if_neg h).trans (if_pos hfull)

/-- A dictionary with one entry finds that entry alone. -/
theorem lookup_singleton_eq_some {x y : ByteString} {k n : Nat} (h : [(y, n)].lookup x = some k) : x = y ∧ n = k := by
  rw [List.lookup_cons] at h
  split at h
  · rename_i heq
    exact ⟨eq_of_beq heq, Option.some.inj h⟩
  · cases h

/-- A one-byte string is its own code. -/
theorem codeOf_of_length_one {x : ByteString} (h : x.length = 1) (e : EncoderState) :
    ∃ b, x = literalEntry b ∧ e.codeOf x = b.toNat := by
  obtain ⟨b, rfl⟩ := List.length_eq_one_iff.1 h
  exact ⟨b, rfl, rfl⟩

/-- A longer string has its index. -/
theorem codeOf_of_lookup {e : EncoderState} {x : ByteString} {k : Nat} (h : x.length ≠ 1)
    (hk : e.dict.lookup x = some k) : e.codeOf x = k := by
  match x with
  | [] => simp [EncoderState.codeOf, hk]
  | [b] => exact absurd rfl h
  | b :: b' :: x => simp [EncoderState.codeOf, hk]

/-! ## Encoder and decoder -/

/-- An entry of the encoder is one of the decoder's, or the one that the decoder will append with the next code: `PREV`
and the first byte of what the encoder holds. -/
def EntryOf (e : EncoderState) (s : State) (x : ByteString) (k : Nat) : Prop :=
  tabRead k s = some x ∨ k = s.tlen ∧ x = extend s.prev e.held

/-- The encoder after `bytes`, and the decoder after the encoder's codes so far. -/
structure Follows (start : State) (bytes : ByteString) (e : EncoderState) (s : State) : Prop where
  fed : feedCodes e.codes start = some s
  inv : s.Inv
  running : s.status = .run
  out : s.out ++ e.held = bytes
  cleared : s.prev = [] → e.dict = [] ∧ e.nextIndex = s.tlen
  behind : s.prev ≠ [] → e.nextIndex = s.tlen + 1 ∧ e.held ≠ []
  room : e.nextIndex < 4094
  known : e.held.length ≤ 1 ∨ (e.dict.lookup e.held).isSome
  entries : ∀ x k, e.dict.lookup x = some k → EntryOf e s x k

/-- The decoder once it has been handed the code of what the encoder holds: it has every entry of the encoder. -/
structure CaughtUp (e : EncoderState) (s t : State) : Prop where
  fed : feedCodes [e.codeOf e.held] s = some t
  inv : t.Inv
  running : t.status = .run
  out : t.out = s.out ++ e.held
  prev : t.prev = e.held
  tlen : t.tlen = e.nextIndex
  entries : ∀ x k, e.dict.lookup x = some k → tabRead k t = some x

section
variable {start s : State} {bytes : ByteString} {e : EncoderState}

/-- There is room in the decoder's table, too. -/
theorem Follows.tlen_lt (h : Follows start bytes e s) : s.tlen < 4096 := by
  have hroom := h.room
  by_cases hprev : s.prev = []
  · have := (h.cleared hprev).2; omega
  · have := (h.behind hprev).1; omega

/-- With an entry the encoder has written a code since its last CLEAR, and then it holds a string. -/
theorem Follows.held_ne_nil (h : Follows start bytes e s) {x : ByteString} {k : Nat} (hk : e.dict.lookup x = some k) :
    e.held ≠ [] := by
  have hprev : s.prev ≠ [] := fun hnil => by simp [(h.cleared hnil).1] at hk
  exact (h.behind hprev).2

/-- What the encoder holds is the chunk of its code: the string that the decoder does not have yet is the KwKwK string
(R66). -/
theorem Follows.chunkOf_held (h : Follows start bytes e s) (hprev : s.prev ≠ []) :
    ChunkOf s (e.codeOf e.held) e.held := by
  obtain ⟨-, hheld⟩ := h.behind hprev
  by_cases hone : e.held.length = 1
  · obtain ⟨b, hb, hcode⟩ := codeOf_of_length_one hone e
    rw [hcode, hb]
    exact .inl (tabRead_literal b s)
  · have hpos := List.length_pos_of_ne_nil hheld
    obtain ⟨k, hk⟩ := Option.isSome_iff_exists.1 (h.known.resolve_left (by omega))
    rw [codeOf_of_lookup hone hk]
    refine (h.entries _ k hk).imp_right fun ⟨hlast, hext⟩ => ⟨hlast, ?_⟩
    obtain ⟨b, p, hp⟩ := List.exists_cons_of_ne_nil hprev
    have hfirst : e.held.take 1 = s.prev.take 1 := by rw [hext, hp]; rfl
    rw [hext, kwkString, extend, extend, hfirst]

/-- After CLEAR the first code is a literal (R63). -/
theorem Follows.caughtUp_first (h : Follows start bytes e s) (hheld : e.held ≠ []) (hprev : s.prev = []) :
    ∃ t, CaughtUp e s t := by
  obtain ⟨hdict, hnext⟩ := h.cleared hprev
  have hpos := List.length_pos_of_ne_nil hheld
  have hone : e.held.length = 1 := by
    have := h.known.resolve_right (by simp [hdict])
    omega
  obtain ⟨b, hb, hcode⟩ := codeOf_of_length_one hone e
  have heffect := CodeEffect.first (s := s) b hcode hprev
  have hle : e.codeOf e.held ≤ s.tlen := by have := tlen_eq s; have := b.isLt; omega
  exact ⟨_, {
    fed := feedCodes_of_codeEffect h.inv.engine h.running h.tlen_lt hle heffect
    inv := codeEffect_inv heffect h.inv h.running
    running := h.running
    out := by rw [hb]; rfl
    prev := hb.symm
    tlen := hnext.symm
    entries := by simp [hdict] }⟩

/-- Every other code appends, and the entry is the one the decoder was behind (R65, R66). -/
theorem Follows.caughtUp_append (h : Follows start bytes e s) (hprev : s.prev ≠ []) : ∃ t, CaughtUp e s t := by
  obtain ⟨hnext, -⟩ := h.behind hprev
  have hchunk := h.chunkOf_held hprev
  obtain ⟨hle, hclr, hend⟩ := code_of_chunkOf hchunk
  have heffect := CodeEffect.append _ hchunk hprev h.tlen_lt hle hclr hend
  refine ⟨_, {
    fed := feedCodes_of_codeEffect h.inv.engine h.running h.tlen_lt hle heffect
    inv := codeEffect_inv heffect h.inv h.running
    running := h.running
    out := rfl
    prev := rfl
    tlen := (appendEntry_tlen _ e.held s).trans hnext.symm
    entries := fun x k hk => ?_ }⟩
  rcases h.entries x k hk with hread | ⟨rfl, rfl⟩
  · exact (tabRead_ne_of_tab_append rfl (lt_tlen_of_tabRead hread).ne).trans hread
  · exact tabRead_tlen_of_tab_append rfl

/-- The decoder decodes what the encoder holds. -/
theorem Follows.caughtUp (h : Follows start bytes e s) (hheld : e.held ≠ []) : ∃ t, CaughtUp e s t := by
  by_cases hprev : s.prev = []
  · exact h.caughtUp_first hheld hprev
  · exact h.caughtUp_append hprev

/-- Once CLEAR has been written and run, both start over, the encoder with a string of at most one byte (R61). -/
theorem follows_of_clear {codes : List Nat} (hfed : feedCodes codes start = some s) (hinv : s.Inv)
    (hrun : s.status = .run) (hroom : s.tlen < 4096) {held : ByteString} (hheld : held.length ≤ 1) :
    ∃ t, Follows start (s.out ++ held) ⟨codes ++ [256], [], 258, held⟩ t := by
  have heffect := CodeEffect.clear (s := s) (c := 256) rfl
  have hle : 256 ≤ s.tlen := by have := tlen_eq s; omega
  exact ⟨_, {
    fed := (feedCodes_append hfed _).trans (feedCodes_of_codeEffect hinv.engine hrun hroom hle heffect)
    inv := codeEffect_inv heffect hinv hrun
    running := hrun
    out := by simp
    cleared := fun _ => ⟨rfl, rfl⟩
    behind := fun hne => absurd rfl hne
    room := by simp
    known := .inl hheld
    entries := by simp }⟩

/-- While the encoder has a longer match the decoder waits. -/
theorem Follows.push_known (h : Follows start bytes e s) {ch : Byte}
    (hknown : (e.held ++ [ch]).length = 1 ∨ (e.dict.lookup (e.held ++ [ch])).isSome) :
    Follows start (bytes ++ [ch]) (e.push ch) s := by
  rw [push_of_known hknown]
  exact {
    fed := h.fed
    inv := h.inv
    running := h.running
    out := by simp [← h.out]
    cleared := h.cleared
    behind := fun hprev => ⟨(h.behind hprev).1, by simp⟩
    room := h.room
    known := hknown.imp_left le_of_eq
    entries := fun x k hk => (h.entries x k hk).imp_right fun ⟨hlast, hx⟩ => by
      have hpos := List.length_pos_of_ne_nil (h.held_ne_nil hk)
      exact ⟨hlast, by rw [hx, extend, extend, List.take_append_of_le_length hpos]⟩ }

/-- When the encoder writes a code the decoder catches up, and then is behind by the entry just made. -/
theorem Follows.push_new (h : Follows start bytes e s) {ch : Byte}
    (hnew : ¬ ((e.held ++ [ch]).length = 1 ∨ (e.dict.lookup (e.held ++ [ch])).isSome)) :
    ∃ t, Follows start (bytes ++ [ch]) (e.push ch) t := by
  have hheld : e.held ≠ [] := fun hnil => by simp [hnil] at hnew
  obtain ⟨t, ht⟩ := h.caughtUp hheld
  have hfed : feedCodes (e.codes ++ [e.codeOf e.held]) start = some t := (feedCodes_append h.fed _).trans ht.fed
  have hout : t.out = bytes := ht.out.trans h.out
  have htlen := ht.tlen
  have hroom := h.room
  by_cases hfull : e.nextIndex + 1 = 4094
  · rw [push_of_full hnew hfull]
    obtain ⟨u, hu⟩ := follows_of_clear hfed ht.inv ht.running (by omega) (held := [ch]) le_rfl
    exact ⟨u, hout ▸ hu⟩
  · rw [push_of_new hnew hfull]
    have hprev : t.prev ≠ [] := ht.prev ▸ hheld
    refine ⟨t, {
      fed := hfed
      inv := ht.inv
      running := ht.running
      out := by simp [hout]
      cleared := fun hnil => absurd hnil hprev
      behind := fun _ => ⟨by simp [htlen], by simp⟩
      room := by simp only; omega
      known := .inl le_rfl
      entries := fun x k hk => ?_ }⟩
    rw [List.lookup_append] at hk
    rcases Option.or_eq_some_iff.1 hk with hold | ⟨-, hmade⟩
    · exact .inl (ht.entries x k hold)
    · obtain ⟨rfl, rfl⟩ := lookup_singleton_eq_some hmade
      exact .inr ⟨htlen.symm, by simp [extend, ht.prev]⟩

/-- Every byte takes encoder and decoder on. -/
theorem Follows.push (h : Follows start bytes e s) (ch : Byte) : ∃ t, Follows start (bytes ++ [ch]) (e.push ch) t := by
  by_cases hknown : (e.held ++ [ch]).length = 1 ∨ (e.dict.lookup (e.held ++ [ch])).isSome
  · exact ⟨s, h.push_known hknown⟩
  · exact h.push_new hknown

end

/-- At reset the encoder has written its first CLEAR, and the decoder runs it (R24). -/
theorem follows_start (input : ByteString) :
    ∃ s, Follows (startDecode input State.reset) [] ⟨[256], [], 258, []⟩ s :=
  follows_of_clear (codes := []) rfl (inv_startDecode input State.reset) rfl (by simp) (Nat.zero_le 1)

/-- The decoder follows the encoder through every byte string. -/
theorem follows_encoder (input bytes : ByteString) :
    ∃ s, Follows (startDecode input State.reset) bytes (bytes.foldl EncoderState.push ⟨[256], [], 258, []⟩) s := by
  induction bytes using List.reverseRecOn with
  | nil => exact follows_start input
  | append_singleton bytes ch ih =>
    obtain ⟨s, hs⟩ := ih
    rw [List.foldl_append]
    exact hs.push ch

/-- At the end of the bytes the encoder writes the code of what it still holds, if anything. -/
theorem Follows.flush {start s : State} {bytes : ByteString} {e : EncoderState} (h : Follows start bytes e s) :
    ∃ t, feedCodes (e.codes ++ (if e.held = [] then [] else [e.codeOf e.held])) start = some t ∧ t.Inv ∧
      t.status = .run ∧ t.tlen < 4096 ∧ t.out = bytes := by
  by_cases hheld : e.held = []
  · exact ⟨s, by simp [hheld, h.fed], h.inv, h.running, h.tlen_lt, by simpa [hheld] using h.out⟩
  · obtain ⟨t, ht⟩ := h.caughtUp hheld
    have hroom := h.room
    rw [if_neg hheld]
    exact ⟨t, (feedCodes_append h.fed _).trans ht.fed, ht.inv, ht.running, by rw [ht.tlen]; omega, ht.out.trans h.out⟩

/-- A decoder that is handed the encoder's codes puts out the encoded bytes and ends with END (R75, R83). -/
theorem feedCodes_encoderCodes (input bytes : ByteString) :
    ∃ t, feedCodes (encoderCodes bytes) (startDecode input State.reset) = some t ∧
      resultOf t = ⟨.doneEnd, .noCause, 0, bytes⟩ := by
  obtain ⟨s, hs⟩ := follows_encoder input bytes
  obtain ⟨t, hfed, hinv, hrun, hroom, hout⟩ := hs.flush
  have heffect := CodeEffect.endOfData (s := t) (c := 257) rfl
  have hle : 257 ≤ t.tlen := by have := tlen_eq t; omega
  obtain ⟨hcause, hecode⟩ := hinv.status
  have hnot : t.status ≠ .errCorrupt := by simp [hrun]
  refine ⟨_, (feedCodes_append hfed _).trans (feedCodes_of_codeEffect hinv.engine hrun hroom hle heffect), ?_⟩
  simp [resultOf, hout, not_not.1 (mt hcause.2 hnot), hecode hnot]

/-- Settles O54: the decoder reads back the codes that were packed, and the run has ended with them. -/
theorem decodeOfTestEncoderIsIdentity : Obligations.DecodeOfTestEncoderIsIdentity := by
  intro bytes
  obtain ⟨t, hfed, hresult⟩ := feedCodes_encoderCodes (encodeStream bytes) bytes
  obtain ⟨hread, -⟩ := packedCodesAreReadBack _ t hfed
  have hsame : resultOf (runSteps (encoderCodes bytes).length (startDecode (encodeStream bytes) State.reset)) =
      resultOf t := by
    rw [encodeStream, hread]
    rfl
  rw [hresult] at hsame
  have hended : (runSteps (encoderCodes bytes).length (startDecode (encodeStream bytes) State.reset)).status = .doneEnd :=
    congrArg DecodeResult.status hsame
  rw [decodeStream, decodeRun_of_ended (by rw [hended]; decide), hsame]

end Sys2Proof.Proofs
end

section
/-! SUPPORT. The status surface of R87: the results that count as success, and the obligation on the signals, which rests on
the widths that the signals of D10 hold. -/

namespace Sys2Proof.Proofs

open Sys2Proof Sys2Proof.Machine Sys2Proof.Claims

/-- The two graceful endings, and they alone, are success (R22). -/
theorem success_eq_true_iff (v : Status) : v.success = true ↔ v = .doneEnd ∨ v = .doneEos := by
  cases v <;> decide

/-- Settles O46: the codes are read off, and no signal is narrower than the element it shows. -/
theorem statusSurfaceIsFaithful : Obligations.StatusSurfaceIsFaithful := by
  refine ⟨by decide, by decide, success_eq_true_iff, fun s hinv => ?_⟩
  exact ⟨statusPorts_width_toNat s, statusPorts_tlen_toNat hinv, rfl, rfl, rfl⟩

end Sys2Proof.Proofs
end

section
/-! SUPPORT. Reset (R95, R96): where a decode about to start reads its first code, that the build is all it keeps of the
state before it, and that a CLEAR leaves the same engine. -/

namespace Sys2Proof.Proofs

open Sys2Proof Sys2Proof.Machine Sys2Proof.Claims

/-- `BPOS = 8` with nothing pulled is the cursor of an untouched input (R11, R24). -/
@[simp] theorem startDecode_cursor (bytes : ByteString) (s : State) : (startDecode bytes s).cursor = 0 := by
  simp [State.cursor]

/-- The first code is read at 9 bits from bit 7 of `IN[0]` on (R95). -/
theorem nextCode_startDecode (bytes : ByteString) (s : State) : nextCode (startDecode bytes s) = streamField bytes 0 9 := by
  simp [nextCode, Format.bits]

/-- Reset forgets all but the build (R82, R95). -/
theorem startDecode_congr (bytes : ByteString) {s t : State} (hbuild : t.hasTrace = s.hasTrace) :
    startDecode bytes t = startDecode bytes s := by
  rw [startDecode, startDecode, hbuild]

/-- Settles O44: each element is the one `State.reset` gives, and of the state before only the build is kept. -/
theorem resetFromAnyState : Obligations.ResetFromAnyState := by
  intro bytes s
  refine ⟨?_, fun t hbuild => startDecode_congr bytes hbuild⟩
  exact ⟨rfl, rfl, rfl, rfl, rfl, rfl, rfl, rfl, rfl, rfl, rfl, rfl,
    startDecode_cursor bytes s, nextCode_startDecode bytes s⟩

/-- Settles O45: what CLR leaves (R61) is the engine of R24. -/
theorem resetEngineIsClearedEngine : Obligations.ResetEngineIsClearedEngine := by
  intro i s hk
  exact ⟨_, clearCodeResult i s hk, rfl, rfl, rfl, rfl⟩

end Sys2Proof.Proofs
end
